-- ==== Sys2Proof/Word.lean ====
section
/-! DEFINITION. The two word types of the BitBuffer engine: the 32-bit registers of 10_state.md R27 and the 8-bit storage
bytes of R22. All register values are unsigned (00_scope.md R17). -/

namespace Sys2Proof

/-- A host register, a command word, an operand, a position or a count: REG_WIDTH = 32 bits (00_scope.md R6). -/
abbrev Word := BitVec 32

/-- One byte of slot storage (10_state.md R22). -/
abbrev Byte := BitVec 8

end Sys2Proof
end

