-- ==== Sys2Proof/Config.lean ====
section
/-! DEFINITION. The implementation parameters of 00_scope.md R6. A machine carries its own parameters (Machine/State.lean:
NBUF is the number of its slots, CAP_BYTES a field), so every statement over all states holds for every choice of them. -/

namespace Sys2Proof

/-- The two parameters the rules depend on. LAT and HOST_BUS are not here: no rule depends on them (R6, R183). -/
structure Config where
  /-- NBUF, the number of buffer slots. -/
  nbuf : Nat
  /-- CAP_BYTES, the storage capacity of one slot in bytes. -/
  capBytes : Nat
  deriving DecidableEq, Repr

/-- The constraints of R6: 2 ≤ NBUF ≤ 16 and 1 ≤ CAP_BYTES ≤ 2^28. -/
abbrev Config.Legal (c : Config) : Prop :=
  (2 ≤ c.nbuf ∧ c.nbuf ≤ 16) ∧ 1 ≤ c.capBytes ∧ c.capBytes ≤ 2 ^ 28

/-- CAP_BITS = 8 × CAP_BYTES (R6). -/
def Config.capBits (c : Config) : Nat := 8 * c.capBytes

/-- INT_WIDTH, the width of the integer behind APPINT (R6). -/
def Config.intWidth : Nat := 32

/-- TC, the test configuration of R7: an example, no property of the hardware (DESIGN CHOICE that reset uses it, log 1). -/
def Config.tc : Config := { nbuf := 4, capBytes := 8 }

end Sys2Proof
end

