-- ==== Sys2Proof/Syntax.lean ====
section
/-! DEFINITION. The commands of the engine: one constructor per row of spec/opcode_table.json, in the table's order, with the
operands of the assembler syntax of 30_encoding.md R78. The 32-bit operand OPV is no field of a command word (R70): it is
PEND_OP. -/

namespace Sys2Proof

/-- A command (30_encoding.md R72). `d` and `s` are slot numbers, `b` the bit value, `w` the field width. -/
inductive Instr where
  /-- `INIT d` (R100). -/
  | init (d : Nat)
  /-- `APPBIT d, b` (R110). -/
  | appbit (d : Nat) (b : Bool)
  /-- `APPRUN d, b`, OPV = run length (R111). -/
  | apprun (d : Nat) (b : Bool)
  /-- `APPINT d, w`, OPV = value (R112). -/
  | appint (d : Nat) (w : Nat)
  /-- `RDBIT d`, OPV = position (R120). -/
  | rdbit (d : Nat)
  /-- `TOBYTES d` (R122). -/
  | tobytes (d : Nat)
  /-- `RDBYTE d`, OPV = byte index (R123). -/
  | rdbyte (d : Nat)
  /-- `CLONE d, s` (R130). -/
  | clone (d : Nat) (s : Nat)
  /-- `CONCAT d, s` (R131). -/
  | concat (d : Nat) (s : Nat)
  /-- `LEN d` (R124). -/
  | len (d : Nat)
  deriving DecidableEq, Repr

/-- The slot a command acts on: the D field (30_encoding.md R70). -/
def Instr.slot : Instr → Nat
  | .init d => d
  | .appbit d _ => d
  | .apprun d _ => d
  | .appint d _ => d
  | .rdbit d => d
  | .tobytes d => d
  | .rdbyte d => d
  | .clone d _ => d
  | .concat d _ => d
  | .len d => d

/-- The source slot of CLONE and CONCAT (the S field), none for the others (30_encoding.md R70). -/
def Instr.source? : Instr → Option Nat
  | .init _ => none
  | .appbit _ _ => none
  | .apprun _ _ => none
  | .appint _ _ => none
  | .rdbit _ => none
  | .tobytes _ => none
  | .rdbyte _ => none
  | .clone _ s => some s
  | .concat _ s => some s
  | .len _ => none

/-- The inspecting commands RDBIT, TOBYTES, RDBYTE and LEN (00_scope.md R14). -/
def Instr.inspecting : Instr → Bool
  | .init _ => false
  | .appbit _ _ => false
  | .apprun _ _ => false
  | .appint _ _ => false
  | .rdbit _ => true
  | .tobytes _ => true
  | .rdbyte _ => true
  | .clone _ _ => false
  | .concat _ _ => false
  | .len _ => true

end Sys2Proof
end

