-- ==== Sys2Proof/WellFormed.lean ====
section
/-! DEFINITION. The operand ranges an assembler accepts (30_encoding.md R78): slot numbers 0 to 15, widths 0 to 63. A slot
number from NBUF to 15 and a width from 33 to 63 are well-formed: they raise BAD_SLOT and WIDTH_INVALID (R72, R76). -/

namespace Sys2Proof

/-- A slot number fits its 4-bit field. -/
abbrev slotFits (d : Nat) : Prop := d < 16

/-- A width fits the 6-bit W field. -/
abbrev widthFits (w : Nat) : Prop := w < 64

/-- The checks of R78, as a Bool, command by command. -/
def Instr.wellFormed : Instr → Bool
  | .init d => decide (slotFits d)
  | .appbit d _ => decide (slotFits d)
  | .apprun d _ => decide (slotFits d)
  | .appint d w => decide (slotFits d) && decide (widthFits w)
  | .rdbit d => decide (slotFits d)
  | .tobytes d => decide (slotFits d)
  | .rdbyte d => decide (slotFits d)
  | .clone d s => decide (slotFits d) && decide (slotFits s)
  | .concat d s => decide (slotFits d) && decide (slotFits s)
  | .len d => decide (slotFits d)

/-- A well-formed command: every operand in the range its field can hold. -/
abbrev WellFormed (i : Instr) : Prop := i.wellFormed = true

end Sys2Proof
end

