-- ==== Sys2Proof/Decode.lean ====
section
/-! DEFINITION. The command word of 30_encoding.md: its fields (R70, R71), the match and mask table (R73), the total decoder
(R74) that rejects by name (R75), and the encoder (R78). A command word is one 32-bit register value, not bytes in a memory,
so no byte order enters (R65, R77; log 18). -/

namespace Sys2Proof

/-- OP, bits 3:0 (R70). -/
def fieldOp (w : Word) : Nat := (w &&& 0xF).toNat

/-- D, bits 7:4, zero-extended (R71). -/
def fieldD (w : Word) : Nat := ((w >>> 4) &&& 0xF).toNat

/-- S, bits 11:8, zero-extended (R71). -/
def fieldS (w : Word) : Nat := ((w >>> 8) &&& 0xF).toNat

/-- B, bit 12 (R71). -/
def fieldB (w : Word) : Bool := w.getLsbD 12

/-- W, bits 18:13, zero-extended (R71). -/
def fieldW (w : Word) : Nat := ((w >>> 13) &&& 0x3F).toNat

/-- RSV, bits 31:19 (R70). -/
def fieldRsv (w : Word) : Nat := (w >>> 19).toNat

/-- One row of R73's table: the match value, the mask, and the command its words stand for. -/
structure Row where
  /-- The row's match value. -/
  value : Word
  /-- The row's mask. -/
  mask : Word
  /-- The command, its operands read from the word's fields. -/
  read : Word → Instr

/-- A word selects a row when `w & mask = match` (R73). -/
abbrev Row.selects (r : Row) (w : Word) : Prop := w &&& r.mask = r.value

/-- The ten rows of R73, in the table's order. -/
def rows : List Row :=
  [ { value := 0x00000001, mask := 0xFFFFFF0F, read := fun w => .init (fieldD w) },
    { value := 0x00000002, mask := 0xFFFFEF0F, read := fun w => .appbit (fieldD w) (fieldB w) },
    { value := 0x00000003, mask := 0xFFFFEF0F, read := fun w => .apprun (fieldD w) (fieldB w) },
    { value := 0x00000004, mask := 0xFFF81F0F, read := fun w => .appint (fieldD w) (fieldW w) },
    { value := 0x00000005, mask := 0xFFFFFF0F, read := fun w => .rdbit (fieldD w) },
    { value := 0x00000006, mask := 0xFFFFFF0F, read := fun w => .tobytes (fieldD w) },
    { value := 0x00000007, mask := 0xFFFFFF0F, read := fun w => .rdbyte (fieldD w) },
    { value := 0x00000008, mask := 0xFFFFF00F, read := fun w => .clone (fieldD w) (fieldS w) },
    { value := 0x00000009, mask := 0xFFFFF00F, read := fun w => .concat (fieldD w) (fieldS w) },
    { value := 0x0000000A, mask := 0xFFFFFF0F, read := fun w => .len (fieldD w) } ]

/-- Why a word is illegal: the three kinds of R75. The engine reports ILLEGAL for each of them; the kind has no effect on the
machine (DESIGN CHOICE, log 15). -/
inductive Illegal where
  /-- OP is 0x0 or 0xB to 0xF. -/
  | reservedOpcode
  /-- OP is a command's and an RSV bit (31:19) is set. -/
  | reservedBits
  /-- OP is a command's, RSV is 0 and a field the command does not use is not 0. -/
  | unusedField
  deriving DecidableEq, Repr

/-- What a word decodes to. -/
inductive Decoded where
  /-- A command. -/
  | command (i : Instr)
  /-- ILLEGAL, with the kind of R75. -/
  | illegal (why : Illegal)
  deriving DecidableEq, Repr

/-- The kind of R75 a word without a row falls under. -/
def illegalKind (w : Word) : Illegal :=
  if fieldOp w = 0 ∨ 0xB ≤ fieldOp w then .reservedOpcode
  else if fieldRsv w ≠ 0 then .reservedBits
  else .unusedField

/-- The loop of DecodeCmd (R74) over the rows that are left: the first row the word selects, else ILLEGAL. -/
def decodeIn (w : Word) : List Row → Decoded
  | [] => .illegal (illegalKind w)
  | r :: rs => if r.selects w then .command (r.read w) else decodeIn w rs

/-- DecodeCmd (R74). Total on all words. -/
def decodeCmd (w : Word) : Decoded := decodeIn w rows

/-- The command of a decoding, none for ILLEGAL. -/
def Decoded.instr? : Decoded → Option Instr
  | .command i => some i
  | .illegal _ => none

/-- `enc = OP | D << 4 | S << 8 | B << 12 | W << 13` (R78). -/
def encodeFields (op d s : Nat) (b : Bool) (w : Nat) : Word :=
  BitVec.ofNat 32 op ||| (BitVec.ofNat 32 d <<< 4) ||| (BitVec.ofNat 32 s <<< 8)
    ||| (BitVec.ofNat 32 b.toNat <<< 12) ||| (BitVec.ofNat 32 w <<< 13)

/-- The word of a well-formed command (R72's opcodes, R78's formula). -/
def encode : Instr → Word
  | .init d => encodeFields 0x1 d 0 false 0
  | .appbit d b => encodeFields 0x2 d 0 b 0
  | .apprun d b => encodeFields 0x3 d 0 b 0
  | .appint d w => encodeFields 0x4 d 0 false w
  | .rdbit d => encodeFields 0x5 d 0 false 0
  | .tobytes d => encodeFields 0x6 d 0 false 0
  | .rdbyte d => encodeFields 0x7 d 0 false 0
  | .clone d s => encodeFields 0x8 d s false 0
  | .concat d s => encodeFields 0x9 d s false 0
  | .len d => encodeFields 0xA d 0 false 0

/-- The assembler of R78: it rejects an operand outside its range. -/
def assemble (i : Instr) : Option Word :=
  if i.wellFormed then some (encode i) else none

/-- The command read from an instruction of the opcode table given as a number, bit 0 the least significant. Every row has 32
bits; bits above `nbits` are 0. -/
def decodeTableWord (nbits w : Nat) : Option Instr :=
  if nbits ≤ 32 then (decodeCmd (BitVec.ofNat 32 (w % 2 ^ nbits))).instr? else none

end Sys2Proof
end

