-- ==== Sys2Proof/Machine/State.lean ====
section
/-! DEFINITION. The state of the machine as plain data: the slot file, the host registers and the pending-command latch of
10_state.md R20, and the side of the two agents that the model needs (the host's program and variables, and whose turn is
next). Reset is 10_state.md R40. -/

namespace Sys2Proof.Machine

/-- Slot storage: the bytes present, as (index, byte) pairs with strictly rising indices. An index that is not listed holds no
value: absent bytes are unspecified (10_state.md R22) and left out (R38; DESIGN CHOICE, log 2). -/
abbrev Memory := List Host.Cell

/-- One BitBuffer (10_state.md R20, R22-R24). -/
structure Slot where
  /-- STORAGE[s], the bytes present (R22). -/
  storage : Memory
  /-- BITCOUNT[s] (R23). -/
  bitCount : Word
  /-- BYTELEN[s] (R24). -/
  byteLen : Word
  deriving DecidableEq, Repr

/-- A freshly constructed slot: one zero byte, no bits (10_state.md R40, 40_construction.md R100). -/
def Slot.fresh : Slot := { storage := [(0, 0#8)], bitCount := 0, byteLen := 1 }

/-- STATUS (10_state.md R28). The reserved bits 3:1 and 31:9 read 0 and ignore writes, so they are not stored (log 9). -/
structure Status where
  /-- BUSY, bit 0. -/
  busy : Bool
  /-- ECODE, bits 7:4. -/
  ecode : BitVec 4
  /-- OVR, bit 8. -/
  ovr : Bool
  deriving DecidableEq, Repr

/-- The error codes of 60_exceptions.md R150. -/
inductive ECode where
  /-- 0: the command succeeded. -/
  | ok
  /-- 1: RDBIT position or RDBYTE index out of range. -/
  | outOfRange
  /-- 2: APPINT width above 32. -/
  | widthInvalid
  /-- 3: an append would pass CAP_BITS. -/
  | capacity
  /-- 4: the word is no command. -/
  | illegal
  /-- 5: a slot number not below NBUF. -/
  | badSlot
  deriving DecidableEq, Repr

/-- The registers of the host window (10_state.md R27). -/
inductive HostReg where
  /-- 0x00, write-only. -/
  | cmd
  /-- 0x04, read/write. -/
  | operand
  /-- 0x08, read-only. -/
  | result
  /-- 0x0C. -/
  | status
  /-- 0x10, read-only. -/
  | nbufReg
  /-- 0x14, read-only. -/
  | capBytesReg
  /-- 0x18 to 0x3C. -/
  | reserved
  deriving DecidableEq, Repr

/-- The shapes of a host access that 10_state.md R36 tells apart. -/
inductive AccessKind where
  /-- An 8-bit access. -/
  | byte
  /-- A 16-bit access. -/
  | halfword
  /-- A single 32-bit access: the only kind with a meaning. -/
  | word
  /-- A burst. -/
  | burst
  deriving DecidableEq, Repr

/-- A host access: its shape and its byte offset from the base address, which HOST_BUS fixes (R27; log 10). -/
structure BusAccess where
  /-- The access's shape. -/
  kind : AccessKind
  /-- Byte offset into the host's view of the window. -/
  offset : Nat
  deriving DecidableEq, Repr

/-- The two host walks over a slot: READBYTES (30_encoding.md R83) and the rendering walk (44_observation.md R142). -/
inductive WalkKind where
  /-- RDBYTE of every byte of the view. -/
  | bytes
  /-- RDBIT of every bit. -/
  | bits
  deriving DecidableEq, Repr

/-- One operation of a host program (30_encoding.md R79). -/
inductive HostOp where
  /-- `WR <reg>, imm32`. -/
  | wr (a : BusAccess) (v : Word)
  /-- `RD <reg> -> hN`. -/
  | rd (a : BusAccess) (h : Nat)
  /-- `WAIT`: repeats `RD STATUS` until BUSY = 0. -/
  | wait
  /-- `RD RESULT -> hL`, after which the host goes on with the L reads of R83 or R142 on slot `d`, into the variables from
  `base` on (log 7). -/
  | rdCount (k : WalkKind) (d h base : Nat)
  deriving DecidableEq, Repr

/-- Whose step is next: an agent of 00_scope.md R16, or the reset input of 70_reset_and_hazards.md R170. -/
inductive Turn where
  /-- The host takes one host operation (R176). -/
  | host
  /-- The engine completes the pending command, if there is one (R177). -/
  | engine
  /-- `rst` is applied (R170). -/
  | rst
  deriving DecidableEq, Repr

/-- The machine. The first seven fields are the BBE's state (10_state.md R20); the last three are the agents' side of it. -/
structure State where
  /-- CAP_BYTES, read as CAPBYTES_REG (R27): constant. -/
  capBytes : Nat
  /-- The slot file, one entry per slot: NBUF, read as NBUF_REG, is its length (R20, R27; log 1). -/
  slots : List Slot
  /-- OPERAND (R32). -/
  operand : Word
  /-- RESULT (R29). -/
  result : Word
  /-- STATUS (R28). -/
  status : Status
  /-- PEND_CMD (R37). -/
  pendCmd : Word
  /-- PEND_OP (R37). -/
  pendOp : Word
  /-- The host operations still to be done (R21, 30_encoding.md R79; log 6). -/
  program : List HostOp
  /-- The host's own variables hN: (N, value), N strictly rising (30_encoding.md R79; log 6). -/
  hostVars : List (Nat × Word)
  /-- Whose turn is next, first entry first: the interleaving of the agents (60_exceptions.md R159; log 4). -/
  schedule : List Turn
  deriving DecidableEq, Repr

/-- Why the machine stops. No BBE error is here: those are next states (60_exceptions.md R155). No state that meets the
invariants of 10_state.md R25 raises one of these. -/
inductive Fault where
  /-- Raised by `memRead` on a byte that is not present (10_state.md R22: its value is unspecified). Safe: the model stops where
  the hardware would go on with some value (log 2). -/
  | absentByte (index : Nat)
  /-- Raised by `memRead` and `memWrite` on an index not below CAP_BYTES (20_memory.md R51: not defined there). Safe (log 3). -/
  | storageBounds (index : Nat)
  deriving DecidableEq, Repr

/-- Why the model gives no meaning. -/
inductive Refusal where
  /-- Raised by an arm of `exec` whose instruction has no meaning yet, by its mnemonic. Safe. No arm raises it now. -/
  | notModelled (mnemonic : String)
  /-- Raised by a host step whose access is not an aligned 32-bit access of 0x00-0x3C: 10_state.md R36 itself refuses it. Safe
  (log 20). -/
  | hostAccess (a : BusAccess)
  deriving DecidableEq, Repr

/-- NBUF: the number of slots (log 1). -/
def State.nbuf (s : State) : Nat := s.slots.length

/-- The parameters this machine was built with. -/
def State.cfg (s : State) : Config := { nbuf := s.slots.length, capBytes := s.capBytes }

/-- CAP_BITS of this machine (00_scope.md R6). -/
def State.capBits (s : State) : Nat := 8 * s.capBytes

/-- The machine right after reset, for any parameters (10_state.md R40): every slot fresh, every register 0. The host has no
operation to do, no variable, and no turn is laid down (DESIGN CHOICE, log 14). -/
def State.resetWith (c : Config) : State :=
  { capBytes := c.capBytes
    slots := List.replicate c.nbuf Slot.fresh
    operand := 0
    result := 0
    status := { busy := false, ecode := 0, ovr := false }
    pendCmd := 0
    pendOp := 0
    program := []
    hostVars := []
    schedule := [] }

/-- The machine right after reset, in the test configuration TC (00_scope.md R7; DESIGN CHOICE, log 1). -/
def State.reset : State := State.resetWith Config.tc

end Sys2Proof.Machine
end

