-- ==== Sys2Proof/Machine/Flags.lean ====
section
/-! DEFINITION. Every computation on STATUS: the codes of ECODE (60_exceptions.md R150), the word a host reads (10_state.md
R33), and what issue, overrun, completion and a STATUS write do to BUSY, ECODE and OVR (R30, R31, R34; 60_exceptions.md R151;
70_reset_and_hazards.md R177). -/

namespace Sys2Proof.Machine

/-- The 4-bit code of an error (R150). -/
def ECode.code : ECode → BitVec 4
  | .ok => 0
  | .outOfRange => 1
  | .widthInvalid => 2
  | .capacity => 3
  | .illegal => 4
  | .badSlot => 5

/-- `zext_32(OVR << 8 | ECODE << 4 | BUSY)` (R33). -/
def Status.toWord (t : Status) : Word :=
  (BitVec.ofNat 32 t.ovr.toNat <<< 8) ||| (t.ecode.setWidth 32 <<< 4) ||| BitVec.ofNat 32 t.busy.toNat

/-- BUSY <- 1 at issue; ECODE and OVR keep their values (R30). -/
def Status.issue (t : Status) : Status := { t with busy := true }

/-- OVR <- 1 when CMD is written while BUSY = 1 (R31). -/
def Status.overrun (t : Status) : Status := { t with ovr := true }

/-- A completion: ECODE <- e, BUSY <- 0; OVR is not touched (60_exceptions.md R151, R154; R177). -/
def Status.done (t : Status) (e : ECode) : Status := { t with busy := false, ecode := e.code }

/-- A host write of `w` to STATUS: write 1 to bit 8 clears OVR, every other bit is ignored (R34). -/
def Status.hostWrite (t : Status) (w : Word) : Status :=
  if w.getLsbD 8 then { t with ovr := false } else t

end Sys2Proof.Machine
end

