-- ==== Sys2Proof/Machine/Operands.lean ====
section
/-! DEFINITION. Operands: the bit-position address decoder (20_memory.md R52), the operand value OPV (30_encoding.md R71), the
byte count of a bit count (00_scope.md R8), the bit field of APPINT (41_append.md R112), the slot a command names
(60_exceptions.md R152), and the register an access names (10_state.md R27, R36). -/

namespace Sys2Proof.Machine

/-- byteIndex(p) = p >> 3 (R52). -/
def byteIndex (p : Word) : Nat := (p >>> 3).toNat

/-- shift(p) = 7 - (p & 7), the LSB-0 bit number in the byte (R52; 90_conflicts.md C1). -/
def bitShift (p : Word) : Nat := 7 - (p &&& 7).toNat

/-- mask(p) = 1 << shift(p), 8 bits (R52). -/
def bitMask (p : Word) : Byte := 1#8 <<< bitShift p

/-- ceil(n / 8) = (n + 7) / 8 (00_scope.md R8). -/
def ceil8 (n : Nat) : Nat := (n + 7) / 8

/-- OPV, the operand latched at issue (30_encoding.md R71). -/
def opv (s : State) : Word := s.pendOp

/-- The bits APPINT appends: for i in [0, w), `(v >> (w - i - 1)) & 1`, which is bit w-1-i of v (R112, R113). -/
def fieldBits (v : Word) (w : Nat) : List Bool :=
  (List.range w).map fun i => v.getLsbD (w - 1 - i)

/-- Slot `d`, none when d ≥ NBUF. -/
def slot? (s : State) (d : Nat) : Option Slot := s.slots[d]?

/-- The register at an offset of the window (R27). -/
def regAt (offset : Nat) : HostReg :=
  match offset with
  | 0x00 => .cmd
  | 0x04 => .operand
  | 0x08 => .result
  | 0x0C => .status
  | 0x10 => .nbufReg
  | 0x14 => .capBytesReg
  | _ => .reserved

/-- The register of an aligned 32-bit access of 0x00-0x3C; none for every other access (R36). -/
def hostReg? (a : BusAccess) : Option HostReg :=
  if a.kind = .word ∧ a.offset % 4 = 0 ∧ a.offset ≤ 0x3C then some (regAt a.offset) else none

end Sys2Proof.Machine
end

