-- ==== Sys2Proof/Machine/Ops.lean ====
section
/-! DEFINITION. The named operations the meanings are written over: the cell list, the storage primitives MemRead and MemWrite
(20_memory.md R51), Grow (R54), PutBit (R55), GetBit (R56), the two ends of a command `raise` and `complete` (00_scope.md R10,
60_exceptions.md R151), and the reset event (70_reset_and_hazards.md R170). -/

namespace Sys2Proof.Machine

/-- What a cell list holds at key `a`; an unlisted key holds no value (log 2). -/
def cellRead {β : Type} : List (Nat × β) → Nat → Option β
  | [], _ => none
  | (k, v) :: m, a => if a = k then some v else cellRead m a

/-- Writes key `a`, keeping the keys strictly rising. -/
def cellWrite {β : Type} : List (Nat × β) → Nat → β → List (Nat × β)
  | [], a, v => [(a, v)]
  | (k, u) :: m, a, v =>
    if a < k then (a, v) :: (k, u) :: m
    else if a = k then (a, v) :: m
    else (k, u) :: cellWrite m a v

/-- The cells with key below `n`. -/
def cellsBelow {β : Type} (n : Nat) (m : List (Nat × β)) : List (Nat × β) := m.filter fun c => c.1 < n

/-- The canonical form of a cell list: keys strictly rising. An unlisted key holds no value, so no entry repeats one. -/
abbrev cellsWf {β : Type} (m : List (Nat × β)) : Prop := m.Pairwise fun a b => a.1 < b.1

/-- The canonical form of slot storage. -/
abbrev Memory.wf (m : Memory) : Prop := cellsWf m

/-- MemRead(s, i) (R51). An index outside CAP_BYTES and an absent byte have no value to give (R22; log 2, log 3). -/
def memRead (cap : Nat) (b : Slot) (i : Nat) : Except Fault Byte :=
  if cap ≤ i then .error (.storageBounds i)
  else if b.byteLen.toNat ≤ i then .error (.absentByte i)
  else match cellRead b.storage i with
    | some v => .ok v
    | none => .error (.absentByte i)

/-- MemWrite(s, i, v) (R51). -/
def memWrite (cap : Nat) (b : Slot) (i : Nat) (v : Byte) : Except Fault Slot :=
  if cap ≤ i then .error (.storageBounds i) else .ok { b with storage := cellWrite b.storage i v }

/-- BYTELEN <- n. Bytes from n on become absent: they leave the list (R22, 40_construction.md R101; log 2). -/
def setByteLen (b : Slot) (n : Word) : Slot :=
  { b with byteLen := n, storage := cellsBelow n.toNat b.storage }

/-- Grow(s, p) (R54): one new zero byte when the byte of position p is not yet present. -/
def grow (cap : Nat) (b : Slot) (p : Word) : Except Fault Slot :=
  if b.byteLen.toNat ≤ byteIndex p then
    match memWrite cap b b.byteLen.toNat 0 with
    | .ok g => .ok { g with byteLen := b.byteLen + 1 }
    | .error f => .error f
  else .ok b

/-- A byte with the bit under the mask set or cleared (R55). -/
def setMasked (old m : Byte) (v : Bool) : Byte := if v then old ||| m else old &&& ~~~m

/-- PutBit(s, b) (R55): grow, write the bit at position BITCOUNT, count it. -/
def putBit (cap : Nat) (b : Slot) (v : Bool) : Except Fault Slot :=
  match grow cap b b.bitCount with
  | .error f => .error f
  | .ok g =>
    match memRead cap g (byteIndex b.bitCount) with
    | .error f => .error f
    | .ok old =>
      match memWrite cap g (byteIndex b.bitCount) (setMasked old (bitMask b.bitCount) v) with
      | .error f => .error f
      | .ok w => .ok { w with bitCount := b.bitCount + 1 }

/-- PutBit of each bit of a list, first bit first: the loops of APPRUN and APPINT (41_append.md R111, R112). -/
def putBits (cap : Nat) : List Bool → Slot → Except Fault Slot
  | [], b => .ok b
  | v :: vs, b =>
    match putBit cap b v with
    | .error f => .error f
    | .ok b' => putBits cap vs b'

/-- GetBit(s, p) (R56): `(MemRead(s, i) & m) != 0`. -/
def getBit (cap : Nat) (b : Slot) (p : Word) : Except Fault Bool :=
  match memRead cap b (byteIndex p) with
  | .error f => .error f
  | .ok v => .ok ((v &&& bitMask p) != 0)

/-- The loop of CLONE (43_copy_concat.md R130): MemWrite(d, i, MemRead(s, i)) for each index of the list. -/
def copyBytes (cap : Nat) (src : Slot) : List Nat → Slot → Except Fault Slot
  | [], b => .ok b
  | i :: is, b =>
    match memRead cap src i with
    | .error f => .error f
    | .ok v =>
      match memWrite cap b i v with
      | .error f => .error f
      | .ok b' => copyBytes cap src is b'

/-- The loop of CONCAT (43_copy_concat.md R131): PutBit(d, GetBit(s, p)) for each position of the list. With `self` (d = s) the
bits are read from the slot that is being appended to, as it stands. -/
def concatBits (cap : Nat) (self : Bool) (src : Slot) : List Nat → Slot → Except Fault Slot
  | [], b => .ok b
  | p :: ps, b =>
    match getBit cap (if self then b else src) (BitVec.ofNat 32 p) with
    | .error f => .error f
    | .ok v =>
      match putBit cap b v with
      | .error f => .error f
      | .ok b' => concatBits cap self src ps b'

/-- STORAGE[d], BITCOUNT[d], BYTELEN[d] <- those of `b`. -/
def setSlot (s : State) (d : Nat) (b : Slot) : State := { s with slots := s.slots.set d b }

/-- `complete()` without a result: ECODE <- 0, BUSY <- 0 (00_scope.md R10, 70_reset_and_hazards.md R177). -/
def completed (s : State) : State := { s with status := s.status.done .ok }

/-- `complete(r)`: RESULT <- r as well. -/
def completedWith (r : Word) (s : State) : State := { completed s with result := r }

/-- `raise E`: ECODE <- E, BUSY <- 0 and nothing else (60_exceptions.md R151). -/
def raised (e : ECode) (s : State) : State := { s with status := s.status.done e }

/-- A command ends with error E: a next state, no trap (60_exceptions.md R155). -/
def raise (e : ECode) (s : State) : Host.Outcome State Fault Refusal := .next (raised e s)

/-- A command ends with success and no result. -/
def complete (s : State) : Host.Outcome State Fault Refusal := .next (completed s)

/-- A command ends with success and result `r`. -/
def completeWith (r : Word) (s : State) : Host.Outcome State Fault Refusal := .next (completedWith r s)

/-- The slot check of 60_exceptions.md R152, then the rule on the slot. -/
def withSlot (d : Nat) (s : State) (rule : Slot → Host.Outcome State Fault Refusal) : Host.Outcome State Fault Refusal :=
  match slot? s d with
  | none => raise .badSlot s
  | some b => rule b

/-- A mutating command ends: its slot operation's slot is written to slot `d` in one step (20_memory.md R61). -/
def commit (d : Nat) (r : Except Fault Slot) (s : State) : Host.Outcome State Fault Refusal :=
  match r with
  | .error f => .fault f
  | .ok b => complete (setSlot s d b)

/-- The reset event (70_reset_and_hazards.md R170): every piece of BBE state takes its reset value; a pending command is
abandoned. The host's program, its variables and the turns to come are no BBE state and stay (log 13). -/
def applyReset (s : State) : State :=
  { State.resetWith s.cfg with program := s.program, hostVars := s.hostVars, schedule := s.schedule }

end Sys2Proof.Machine
end

