-- ==== Sys2Proof/Machine/Append.lean ====
section
/-! DEFINITION. APPBIT, APPRUN and APPINT (41_append.md R110-R112). The capacity sum is over unbounded numbers (00_scope.md
R17), and every check comes before every write (60_exceptions.md R151). -/

namespace Sys2Proof.Machine

/-- The capacity check: would `n` more bits pass CAP_BITS? (41_append.md R110-R112, 43_copy_concat.md R131) -/
def overflows (s : State) (b : Slot) (n : Nat) : Bool := decide (s.capBits < b.bitCount.toNat + n)

/-- `APPBIT d, b` (R110). -/
def execAppbit (d : Nat) (v : Bool) (s : State) : Host.Outcome State Fault Refusal :=
  withSlot d s fun b =>
    if overflows s b 1 then raise .capacity s
    else commit d (putBit s.capBytes b v) s

/-- `APPRUN d, b` with n = OPV (R111). -/
def execApprun (d : Nat) (v : Bool) (s : State) : Host.Outcome State Fault Refusal :=
  withSlot d s fun b =>
    if overflows s b (opv s).toNat then raise .capacity s
    else commit d (putBits s.capBytes (List.replicate (opv s).toNat v) b) s

/-- `APPINT d, w` with v = OPV (R112): WIDTH_INVALID is checked before CAPACITY. -/
def execAppint (d w : Nat) (s : State) : Host.Outcome State Fault Refusal :=
  withSlot d s fun b =>
    if Config.intWidth < w then raise .widthInvalid s
    else if overflows s b w then raise .capacity s
    else commit d (putBits s.capBytes (fieldBits (opv s) w) b) s

end Sys2Proof.Machine
end

