-- ==== Sys2Proof/Machine/Construction.lean ====
section
/-! DEFINITION. INIT (40_construction.md R100, R101). -/

namespace Sys2Proof.Machine

/-- INIT's effect on its slot: byte 0 <- 0x00, BYTELEN <- 1, BITCOUNT <- 0; the other bytes become absent (R100, R101). -/
def initSlot (cap : Nat) (b : Slot) : Except Fault Slot :=
  match memWrite cap b 0 0x00 with
  | .error f => .error f
  | .ok z => .ok { setByteLen z 1 with bitCount := 0 }

/-- `INIT d` (R100). -/
def execInit (d : Nat) (s : State) : Host.Outcome State Fault Refusal :=
  withSlot d s fun b => commit d (initSlot s.capBytes b) s

end Sys2Proof.Machine
end

