-- ==== Sys2Proof/Machine/CopyConcat.lean ====
section
/-! DEFINITION. CLONE and CONCAT (43_copy_concat.md R130-R132). Both slots are checked, D first, before either rule
(60_exceptions.md R152). -/

namespace Sys2Proof.Machine

/-- CLONE's effect on its destination, d ≠ s (R130): the bytes present in the source, then BYTELEN and BITCOUNT. The
destination's bytes beyond the new BYTELEN become absent. -/
def cloneSlot (cap : Nat) (src dst : Slot) : Except Fault Slot :=
  match copyBytes cap src (List.range src.byteLen.toNat) dst with
  | .error f => .error f
  | .ok c => .ok { setByteLen c src.byteLen with bitCount := src.bitCount }

/-- `CLONE d, s` (R130): d = s is a successful no-op. -/
def execClone (d src : Nat) (s : State) : Host.Outcome State Fault Refusal :=
  withSlot d s fun b =>
    withSlot src s fun c =>
      if d = src then complete s
      else commit d (cloneSlot s.capBytes c b) s

/-- `CONCAT d, s` (R131): n = BITCOUNT[s] is captured once, before any append. -/
def execConcat (d src : Nat) (s : State) : Host.Outcome State Fault Refusal :=
  withSlot d s fun b =>
    withSlot src s fun c =>
      if overflows s b c.bitCount.toNat then raise .capacity s
      else commit d (concatBits s.capBytes (decide (d = src)) c (List.range c.bitCount.toNat) b) s

end Sys2Proof.Machine
end

