-- ==== Sys2Proof/Machine/Read.lean ====
section
/-! DEFINITION. RDBIT, TOBYTES, RDBYTE and LEN (42_read.md R120-R124). They change no slot (20_memory.md R62); every result is
zero-extended to 32 bits (10_state.md R29). -/

namespace Sys2Proof.Machine

/-- `RDBIT d` with p = OPV (R120). -/
def execRdbit (d : Nat) (s : State) : Host.Outcome State Fault Refusal :=
  withSlot d s fun b =>
    if b.bitCount.toNat ≤ (opv s).toNat then raise .outOfRange s
    else match getBit s.capBytes b (opv s) with
      | .error f => .fault f
      | .ok v => completeWith (BitVec.ofNat 32 v.toNat) s

/-- `TOBYTES d` (R122): ceil(BITCOUNT / 8), not BYTELEN. -/
def execTobytes (d : Nat) (s : State) : Host.Outcome State Fault Refusal :=
  withSlot d s fun b => completeWith (BitVec.ofNat 32 (ceil8 b.bitCount.toNat)) s

/-- `RDBYTE d` with i = OPV (R123): the storage as it is now. -/
def execRdbyte (d : Nat) (s : State) : Host.Outcome State Fault Refusal :=
  withSlot d s fun b =>
    if ceil8 b.bitCount.toNat ≤ (opv s).toNat then raise .outOfRange s
    else match memRead s.capBytes b (opv s).toNat with
      | .error f => .fault f
      | .ok v => completeWith (v.setWidth 32) s

/-- `LEN d` (R124). -/
def execLen (d : Nat) (s : State) : Host.Outcome State Fault Refusal :=
  withSlot d s fun b => completeWith b.bitCount s

end Sys2Proof.Machine
end

