-- ==== Sys2Proof/Machine/Dispatch.lean ====
section
/-! DEFINITION. What each command does at completion, after decoding (60_exceptions.md R152): one arm per row of the opcode
table. -/

namespace Sys2Proof.Machine

def exec (i : Instr) (s : State) : Host.Outcome State Fault Refusal :=
  match i with
  | .init d => Sys2Proof.Machine.execInit d s
  | .appbit d b => Sys2Proof.Machine.execAppbit d b s
  | .apprun d b => Sys2Proof.Machine.execApprun d b s
  | .appint d w => Sys2Proof.Machine.execAppint d w s
  | .rdbit d => Sys2Proof.Machine.execRdbit d s
  | .tobytes d => Sys2Proof.Machine.execTobytes d s
  | .rdbyte d => Sys2Proof.Machine.execRdbyte d s
  | .clone d c => Sys2Proof.Machine.execClone d c s
  | .concat d c => Sys2Proof.Machine.execConcat d c s
  | .len d => Sys2Proof.Machine.execLen d s

end Sys2Proof.Machine
end

