-- ==== Sys2Proof/Machine/HostProgram.lean ====
section
/-! DEFINITION. Host programs: the accesses of the window's registers, the pseudo-operations EXEC, EXEC.I, APPBITS and READBYTES
(30_encoding.md R81-R83), the mapping of the source's operations (R84) and the rendering walk (44_observation.md R142), as
lists of host operations. -/

namespace Sys2Proof.Machine

/-- The aligned 32-bit access of an offset. -/
def wordAt (offset : Nat) : BusAccess := { kind := .word, offset := offset }

/-- The access of CMD (10_state.md R27). -/
def atCmd : BusAccess := wordAt 0x00

/-- The access of OPERAND. -/
def atOperand : BusAccess := wordAt 0x04

/-- The access of RESULT. -/
def atResult : BusAccess := wordAt 0x08

/-- The access of STATUS. -/
def atStatus : BusAccess := wordAt 0x0C

/-- `EXEC 0x????????`: write the word to CMD, then WAIT (R79, R81). -/
def execWordOps (w : Word) : List HostOp := [.wr atCmd w, .wait]

/-- `EXEC <command>` (R81). -/
def execOps (i : Instr) : List HostOp := execWordOps (encode i)

/-- `EXEC.I <command>, imm32` (R81). -/
def execImmOps (i : Instr) (imm : Word) : List HostOp := .wr atOperand imm :: execOps i

/-- `APPBITS d, b0, ..., b(k-1)` (R82). -/
def appbitsOps (d : Nat) (bs : List Bool) : List HostOp := bs.flatMap fun b => execOps (.appbit d b)

/-- One read of a walk: `EXEC.I RDBYTE d, i` or `EXEC.I RDBIT d, i`, then `RD RESULT -> h(base + i)` (R83, R142). -/
def walkRead (k : WalkKind) (d base i : Nat) : List HostOp :=
  execImmOps (match k with | .bytes => .rdbyte d | .bits => .rdbit d) (BitVec.ofNat 32 i) ++ [.rd atResult (base + i)]

/-- The reads of a walk of `n` items (R83, R142). -/
def walkOps (k : WalkKind) (d base n : Nat) : List HostOp := (List.range n).flatMap (walkRead k d base)

/-- `READBYTES d -> h[base ..]`, its length in hL (R83). -/
def readBytesOps (d hL base : Nat) : List HostOp := execOps (.tobytes d) ++ [.rdCount .bytes d hL base]

/-- The host's computation of bitsAsString and describe: LEN, then RDBIT of each position (44_observation.md R142). -/
def renderOps (d hL base : Nat) : List HostOp := execOps (.len d) ++ [.rdCount .bits d hL base]

/-- The operations of the source (R84). -/
inductive SourceOp where
  /-- `new()` on slot d. -/
  | new (d : Nat)
  /-- `appendBit(bit)`. -/
  | appendBit (d : Nat) (b : Bool)
  /-- `appendBits(bit...)`. -/
  | appendBits (d : Nat) (bs : List Bool)
  /-- `appendRun(bit, n)`. -/
  | appendRun (d : Nat) (b : Bool) (n : Word)
  /-- `appendInt(value, width)`. -/
  | appendInt (d : Nat) (value : Word) (width : Nat)
  /-- `readBitAt(position)`: the bit to hR, STATUS to hE. -/
  | readBitAt (d : Nat) (position : Word) (hR hE : Nat)
  /-- `toBytes()`. -/
  | toBytes (d hL base : Nat)
  /-- `clone()` of slot d into the free slot d2. -/
  | clone (d2 d : Nat)
  /-- `concat(other)`. -/
  | concat (d other : Nat)
  /-- Logical length, to hR. -/
  | length (d hR : Nat)
  /-- `bitsAsString()` and `describe()`: the walk a host renders from. -/
  | render (d hL base : Nat)
  deriving DecidableEq, Repr

/-- The host operations of a source operation (R84). -/
def SourceOp.hostOps : SourceOp → List HostOp
  | .new d => execOps (.init d)
  | .appendBit d b => execOps (.appbit d b)
  | .appendBits d bs => appbitsOps d bs
  | .appendRun d b n => execImmOps (.apprun d b) n
  | .appendInt d value width => execImmOps (.appint d width) value
  | .readBitAt d position hR hE => execImmOps (.rdbit d) position ++ [.rd atResult hR, .rd atStatus hE]
  | .toBytes d hL base => readBytesOps d hL base
  | .clone d2 d => execOps (.clone d2 d)
  | .concat d other => execOps (.concat d other)
  | .length d hR => execOps (.len d) ++ [.rd atResult hR]
  | .render d hL base => renderOps d hL base

end Sys2Proof.Machine
end

