-- ==== Sys2Proof/Machine/HostPort.lean ====
section
/-! DEFINITION. The host agent: register reads and writes (10_state.md R30-R36) and the host step
(70_reset_and_hazards.md R176). -/

namespace Sys2Proof.Machine

/-- A host write of `w` to CMD: issue while BUSY = 0 (R30), dropped with OVR <- 1 while BUSY = 1 (R31). -/
def writeCmd (w : Word) (s : State) : State :=
  if s.status.busy then { s with status := s.status.overrun }
  else { s with pendCmd := w, pendOp := s.operand, status := s.status.issue }

/-- A host write to a register (R30-R32, R34, R35). -/
def hostWrite (r : HostReg) (w : Word) (s : State) : State :=
  match r with
  | .cmd => writeCmd w s
  | .operand => { s with operand := w }
  | .status => { s with status := s.status.hostWrite w }
  | .result => s
  | .nbufReg => s
  | .capBytesReg => s
  | .reserved => s

/-- What a host read of a register returns (R33). It changes nothing. -/
def hostRead (r : HostReg) (s : State) : Word :=
  match r with
  | .cmd => 0
  | .operand => s.operand
  | .result => s.result
  | .status => s.status.toWord
  | .nbufReg => BitVec.ofNat 32 s.nbuf
  | .capBytesReg => BitVec.ofNat 32 s.capBytes
  | .reserved => 0

/-- hN <- v: the host's own storage (30_encoding.md R79). -/
def setHostVar (s : State) (h : Nat) (v : Word) : State := { s with hostVars := cellWrite s.hostVars h v }

/-- The host has done its first operation; `rest` is left. -/
def hostNext (s : State) (rest : List HostOp) : State := { s with program := rest }

/-- One host step (R176): the first operation of the program. WAIT reads STATUS and stays while BUSY = 1. An access R36 refuses
has no step. A host with nothing to do lets its turn pass (log 5). -/
def hostStep (s : State) : Host.Outcome State Fault Refusal :=
  match s.program with
  | [] => .next s
  | .wr a v :: rest =>
    match hostReg? a with
    | none => .refused (.hostAccess a)
    | some r => .next (hostWrite r v (hostNext s rest))
  | .rd a h :: rest =>
    match hostReg? a with
    | none => .refused (.hostAccess a)
    | some r => .next (setHostVar (hostNext s rest) h (hostRead r s))
  | .wait :: rest => .next (if s.status.busy then s else hostNext s rest)
  | .rdCount k d h base :: rest =>
    .next (setHostVar (hostNext s (walkOps k d base (hostRead .result s).toNat ++ rest)) h (hostRead .result s))

end Sys2Proof.Machine
end

