-- ==== Sys2Proof/Machine/Engine.lean ====
section
/-! DEFINITION. The engine agent: one completion (70_reset_and_hazards.md R177), and one step of the whole machine: whose turn
it is (00_scope.md R16, 60_exceptions.md R159). -/

namespace Sys2Proof.Machine

/-- A completion (R177, 60_exceptions.md R152): decode PEND_CMD; ILLEGAL ends with that error; a command runs its rule. -/
def engineStep (s : State) : Host.Outcome State Fault Refusal :=
  match decodeCmd s.pendCmd with
  | .illegal _ => raise .illegal s
  | .command i => exec i s

/-- The engine's turn: it has a step if and only if BUSY = 1 (R177); else its turn passes (log 5). -/
def engineTurn (s : State) : Host.Outcome State Fault Refusal :=
  if s.status.busy then engineStep s else .next s

/-- One turn of an agent, or a reset. -/
def takeTurn (t : Turn) (s : State) : Host.Outcome State Fault Refusal :=
  match t with
  | .host => hostStep s
  | .engine => engineTurn s
  | .rst => .next (applyReset s)

/-- Whose turn it is when none is laid down: the engine's while a command is pending (R177: it eventually steps), else the
host's (DESIGN CHOICE, log 4). -/
def defaultTurn (s : State) : Turn := if s.status.busy then .engine else .host

/-- One step of the machine: the next turn of the schedule. -/
def stepTurn (s : State) : Host.Outcome State Fault Refusal :=
  match s.schedule with
  | [] => takeTurn (defaultTurn s) s
  | t :: ts => takeTurn t { s with schedule := ts }

/-- A command stands issued, as R30 leaves it, and the engine's turn is next. -/
def placeCommand (s : State) (w : Word) : State :=
  { s with pendCmd := w, pendOp := s.operand, status := s.status.issue, schedule := .engine :: s.schedule }

end Sys2Proof.Machine
end

