-- ==== Sys2Proof/Machine/Step.lean ====
section
/-! DEFINITION. One step of the machine, and how a command is placed so that the very next step runs it. The machine fetches
nothing (10_state.md R21): its next command is PEND_CMD, so `withFetchWord` stands for the host's accepted CMD write (R30) with
the engine's turn next (log 12). -/

namespace Sys2Proof.Machine

/-- One step (Machine/Engine.lean). -/
def step : State → Host.Outcome State Fault Refusal := stepTurn

/-- The instruction with bits `w` (bits above `nbits` are 0) placed as the pending command. -/
def State.withFetchWord (s : State) (nbits w : Nat) : State :=
  placeCommand s (BitVec.ofNat 32 (w % 2 ^ nbits))

end Sys2Proof.Machine
end

