-- ==== Sys2Proof/Machine/Observe.lean ====
section
/-! DEFINITION. The host-side observation functions of 44_observation.md: bitsAsString (R140) and describe (R141), as lists of
characters. They read a slot and change nothing. -/

namespace Sys2Proof.Machine

/-- GetBit of each position of a list, in order. -/
def getBits (cap : Nat) (b : Slot) : List Nat → Except Fault (List Bool)
  | [] => .ok []
  | p :: ps =>
    match getBit cap b (BitVec.ofNat 32 p) with
    | .error f => .error f
    | .ok v =>
      match getBits cap b ps with
      | .error f => .error f
      | .ok vs => .ok (v :: vs)

/-- The logical bit stream of a slot: GetBit of the positions 0 to BITCOUNT - 1 (R140). -/
def bitsOf (cap : Nat) (b : Slot) : Except Fault (List Bool) := getBits cap b (List.range b.bitCount.toNat)

/-- '1' for a set bit, '0' for a clear one (R140). -/
def bitChar (v : Bool) : Char := if v then '1' else '0'

/-- bitsAsString (R140). -/
def bitsAsString (cap : Nat) (b : Slot) : Except Fault (List Char) :=
  match bitsOf cap b with
  | .error f => .error f
  | .ok vs => .ok (vs.map bitChar)

/-- describe (R141): `<empty>`, or the bits, then the count in decimal in parentheses. -/
def describe (cap : Nat) (b : Slot) : Except Fault (List Char) :=
  if b.bitCount = 0 then .ok ['<', 'e', 'm', 'p', 't', 'y', '>']
  else match bitsAsString cap b with
    | .error f => .error f
    | .ok cs => .ok (cs ++ ['('] ++ Nat.toDigits 10 b.bitCount.toNat ++ [')'])

end Sys2Proof.Machine
end

