-- ==== Sys2Proof/Safety.lean ====
section
/-! DEFINITION. The terms claims use: the invariants of 10_state.md R25 and of the parameters (00_scope.md R6), what a safe
outcome is (60_exceptions.md R155), which error a command meets first (R150, R153), and the source's BitBuffer as a list of bits,
which the engine realises (00_scope.md R3). -/

namespace Sys2Proof.Machine

/-- The stream bit at position `p` as storage holds it, LSB-0 bit 7 - (p mod 8) of byte p / 8 (R25); none where the byte is
absent. -/
def storedBit (m : Memory) (p : Nat) : Option Bool := (cellRead m (p / 8)).map fun v => v.getLsbD (7 - p % 8)

/-- INV1: BITCOUNT ≤ CAP_BITS (R25). -/
abbrev Slot.Inv1 (cap : Nat) (b : Slot) : Prop := b.bitCount.toNat ≤ 8 * cap

/-- INV2: BYTELEN = max(1, ceil(BITCOUNT / 8)) (R25). -/
abbrev Slot.Inv2 (b : Slot) : Prop := b.byteLen.toNat = max 1 (ceil8 b.bitCount.toNat)

/-- INV3: every stream bit from BITCOUNT up to 8 × BYTELEN is 0 (R25). -/
abbrev Slot.Inv3 (b : Slot) : Prop :=
  ∀ p, p < 8 * b.byteLen.toNat → b.bitCount.toNat ≤ p → storedBit b.storage p = some false

/-- The bytes listed are exactly the bytes present, 0 to BYTELEN - 1, in rising order (R22; log 2). -/
abbrev Slot.Present (b : Slot) : Prop := b.storage.map Prod.fst = List.range b.byteLen.toNat

/-- A slot as every completion leaves it. -/
abbrev Slot.Inv (cap : Nat) (b : Slot) : Prop := b.Inv1 cap ∧ b.Inv2 ∧ b.Present ∧ b.Inv3

/-- The machine's invariant: legal parameters, every slot's invariants, an ECODE that R150 names, host variables in canonical
form. -/
abbrev State.Inv (s : State) : Prop :=
  s.cfg.Legal ∧ (∀ b ∈ s.slots, b.Inv s.capBytes) ∧ s.status.ecode.toNat ≤ 5 ∧ cellsWf s.hostVars

/-- A command's outcome R155 allows: a next state, no stop. -/
abbrev completes (o : Host.Outcome State Fault Refusal) : Prop := ∃ t, o = .next t

/-- An access that 10_state.md R36 gives a meaning: an aligned 32-bit access of an offset in 0x00-0x3C. -/
abbrev BusAccess.Legal (a : BusAccess) : Prop := a.kind = .word ∧ a.offset % 4 = 0 ∧ a.offset ≤ 0x3C

/-- The host's next operation is an access that R36 refuses. -/
def State.hostAccessRefused (s : State) : Prop :=
  ∃ a, ¬ a.Legal ∧ ((∃ v rest, s.program = .wr a v :: rest) ∨ ∃ h rest, s.program = .rd a h :: rest)

/-- BITCOUNT[d] as a number, 0 where there is no slot d. -/
def bitCountAt (s : State) (d : Nat) : Nat := ((s.slots[d]?).map fun b => b.bitCount.toNat).getD 0

/-- The first error a decoded command meets, by the causes of R150 in the order of R153. -/
def firstError (s : State) (i : Instr) : ECode :=
  if s.nbuf ≤ i.slot ∨ (∃ c ∈ i.source?, s.nbuf ≤ c) then .badSlot
  else match i with
    | .init _ => .ok
    | .appbit d _ => if 8 * s.capBytes < bitCountAt s d + 1 then .capacity else .ok
    | .apprun d _ => if 8 * s.capBytes < bitCountAt s d + s.pendOp.toNat then .capacity else .ok
    | .appint d w => if 32 < w then .widthInvalid else if 8 * s.capBytes < bitCountAt s d + w then .capacity else .ok
    | .rdbit d => if bitCountAt s d ≤ s.pendOp.toNat then .outOfRange else .ok
    | .tobytes _ => .ok
    | .rdbyte d => if (bitCountAt s d + 7) / 8 ≤ s.pendOp.toNat then .outOfRange else .ok
    | .clone _ _ => .ok
    | .concat d c => if 8 * s.capBytes < bitCountAt s d + bitCountAt s c then .capacity else .ok
    | .len _ => .ok

/-- The number a list of bits spells, first bit most significant. -/
def bitsToNat (bs : List Bool) : Nat := bs.foldl (fun n b => 2 * n + b.toNat) 0

/-- Byte `i` of the byte view of a bit list, zero-padded at its end (00_scope.md R13, byte-aligned extraction). -/
def viewByte (x : List Bool) (i : Nat) : Nat := bitsToNat ((x.drop (8 * i) ++ List.replicate 8 false).take 8)

/-- What a command does to buffers that are plain lists of bits: its error code, the buffers after it, and the result it writes,
if any. -/
structure BufferEffect where
  /-- The error code. -/
  code : ECode
  /-- The buffers after the command. -/
  buffers : List (List Bool)
  /-- The result written. -/
  result : Option Nat
  deriving DecidableEq, Repr

/-- The source's operations on lists of bits (00_scope.md R3), with the engine's capacity and slot checks. `v` is OPV. -/
def bufferEffect (capBits : Nat) (i : Instr) (v : Word) (xs : List (List Bool)) : BufferEffect :=
  match xs[i.slot]? with
  | none => ⟨.badSlot, xs, none⟩
  | some x =>
    match i with
    | .init d => ⟨.ok, xs.set d [], none⟩
    | .appbit d b => if capBits < x.length + 1 then ⟨.capacity, xs, none⟩ else ⟨.ok, xs.set d (x ++ [b]), none⟩
    | .apprun d b =>
      if capBits < x.length + v.toNat then ⟨.capacity, xs, none⟩ else ⟨.ok, xs.set d (x ++ List.replicate v.toNat b), none⟩
    | .appint d w =>
      if 32 < w then ⟨.widthInvalid, xs, none⟩
      else if capBits < x.length + w then ⟨.capacity, xs, none⟩
      else ⟨.ok, xs.set d (x ++ fieldBits v w), none⟩
    | .rdbit _ =>
      match x[v.toNat]? with
      | none => ⟨.outOfRange, xs, none⟩
      | some b => ⟨.ok, xs, some b.toNat⟩
    | .tobytes _ => ⟨.ok, xs, some ((x.length + 7) / 8)⟩
    | .rdbyte _ =>
      if (x.length + 7) / 8 ≤ v.toNat then ⟨.outOfRange, xs, none⟩ else ⟨.ok, xs, some (viewByte x v.toNat)⟩
    | .clone d c =>
      match xs[c]? with
      | none => ⟨.badSlot, xs, none⟩
      | some y => ⟨.ok, xs.set d y, none⟩
    | .concat d c =>
      match xs[c]? with
      | none => ⟨.badSlot, xs, none⟩
      | some y => if capBits < x.length + y.length then ⟨.capacity, xs, none⟩ else ⟨.ok, xs.set d (x ++ y), none⟩
    | .len _ => ⟨.ok, xs, some x.length⟩

/-- The slots hold exactly these bit streams (44_observation.md R140). -/
def State.Holds (s : State) (xs : List (List Bool)) : Prop := s.slots.map (bitsOf s.capBytes) = xs.map Except.ok

/-- APPBIT of each bit of a list on slot `d`, in order, one command after another (43_copy_concat.md R132). -/
def appbitEach (d : Nat) : List Bool → State → Host.Outcome State Fault Refusal
  | [], s => .next s
  | v :: vs, s =>
    match exec (.appbit d v) s with
    | .next t => appbitEach d vs t
    | .fault f => .fault f
    | .refused r => .refused r

/-- How many bits an append command appends when it succeeds; none for the other commands (41_append.md R110-R112). -/
def appendCount (s : State) : Instr → Option Nat
  | .init _ => none
  | .appbit _ _ => some 1
  | .apprun _ _ => some s.pendOp.toNat
  | .appint _ w => some w
  | .rdbit _ => none
  | .tobytes _ => none
  | .rdbyte _ => none
  | .clone _ _ => none
  | .concat _ _ => none
  | .len _ => none

end Sys2Proof.Machine
end

