-- ==== Sys2Proof/Certificates/Slice0/Obligations.lean ====
section
/-! DEFINITION. The statements for the provers, from the numbered rules of spec/. Every statement about all states holds for every
choice of the parameters NBUF and CAP_BYTES, which a state carries. -/

open Sys2Proof Sys2Proof.Machine

/-! ### Encoding (30_encoding.md) -/

/-- Decoding the encoding of a well-formed command gives the command back, at every operand value its fields admit (R73, R78). -/
def Obligations.DecodeOfEncode : Prop :=
  ∀ i : Instr, WellFormed i → decodeCmd (encode i) = .command i

/-- Each word that decodes to a command is that command's only encoding, and the command is well-formed (R73, R78). -/
def Obligations.EncodeOfDecode : Prop :=
  ∀ (w : Word) (i : Instr), decodeCmd w = .command i → WellFormed i ∧ encode i = w

/-- No two rows of the match and mask table match the same word (R73). -/
def Obligations.WordSelectsAtMostOneRow : Prop :=
  ∀ (w : Word) (j k : Nat) (r q : Row), rows[j]? = some r → rows[k]? = some q → r.selects w → q.selects w → j = k

/-- The illegal words are exactly those of R75, and each completes with ILLEGAL, nothing else changing. -/
def Obligations.IllegalWordsCompleteWithIllegal : Prop :=
  (∀ w : Word, (∃ why, decodeCmd w = .illegal why) ↔
    (fieldOp w = 0 ∨ 0xB ≤ fieldOp w) ∨ fieldRsv w ≠ 0 ∨
    (fieldOp w ∈ [0x1, 0x5, 0x6, 0x7, 0xA] ∧ (fieldS w ≠ 0 ∨ fieldB w = true ∨ fieldW w ≠ 0)) ∨
    (fieldOp w ∈ [0x2, 0x3] ∧ (fieldS w ≠ 0 ∨ fieldW w ≠ 0)) ∨
    (fieldOp w = 0x4 ∧ (fieldS w ≠ 0 ∨ fieldB w = true)) ∨
    (fieldOp w ∈ [0x8, 0x9] ∧ (fieldB w = true ∨ fieldW w ≠ 0))) ∧
  ∀ (s : State) (ts : List Turn) (why : Illegal), s.schedule = .engine :: ts → s.status.busy = true →
    decodeCmd s.pendCmd = .illegal why →
    step s = .next { s with schedule := ts, status := { s.status with busy := false, ecode := 4 } }

/-- W encodes 0 to 63; widths 33 to 63 decode as APPINT and raise WIDTH_INVALID, nothing else changing (R76). -/
def Obligations.WideAppintIsWidthInvalid : Prop :=
  ∀ d w : Nat, d < 16 → w ≤ 63 → decodeCmd (encode (.appint d w)) = .command (.appint d w) ∧
    (33 ≤ w → ∀ s : State, d < s.nbuf →
      exec (.appint d w) s = .next { s with status := { s.status with busy := false, ecode := 2 } })

/-- Words written out in R80 and in the decoder vectors decode to what stands there. -/
def Obligations.WrittenWordsDecode : Prop :=
  decodeCmd 0x00000011 = .command (.init 1) ∧ decodeCmd 0x00001012 = .command (.appbit 1 true) ∧
  decodeCmd 0x00001003 = .command (.apprun 0 true) ∧ decodeCmd 0x00008004 = .command (.appint 0 4) ∧
  decodeCmd 0x00000025 = .command (.rdbit 2) ∧ decodeCmd 0x00000006 = .command (.tobytes 0) ∧
  decodeCmd 0x00000007 = .command (.rdbyte 0) ∧ decodeCmd 0x00000028 = .command (.clone 2 0) ∧
  decodeCmd 0x00000109 = .command (.concat 0 1) ∧ decodeCmd 0x0000002A = .command (.len 2) ∧
  decodeCmd 0x00042004 = .command (.appint 0 33) ∧ decodeCmd 0x00000000 = .illegal .reservedOpcode ∧
  decodeCmd 0x80000005 = .illegal .reservedBits ∧ decodeCmd 0x00000105 = .illegal .unusedField

/-! ### Bit addressing, growth and the bit primitives (20_memory.md) -/

/-- The address decoder: byte p / 8, LSB-0 bit 7 - (p mod 8), mask 1 << shift = 0x80 >> (p mod 8) (R52). -/
def Obligations.AddressDecoder : Prop :=
  ∀ p : Word, byteIndex p = p.toNat / 8 ∧ bitShift p = 7 - p.toNat % 8 ∧ bitMask p = 1#8 <<< (7 - p.toNat % 8) ∧
    bitMask p = 0x80#8 >>> (p.toNat % 8)

/-- Every position's byte index is at most 2^29 - 1 and its mask has exactly one bit set (R53). -/
def Obligations.AddressDecoderRange : Prop :=
  ∀ p : Word, byteIndex p ≤ 2 ^ 29 - 1 ∧ ∃! j, j < 8 ∧ (bitMask p).getLsbD j = true

/-- MemRead after MemWrite: inside the capacity a write lands at its own byte and leaves every other byte, the counters and the
canonical form alone; outside it the model stops (R51; the stop is the model's choice, log 3). -/
def Obligations.MemWriteThenRead : Prop :=
  ∀ (cap : Nat) (b : Slot) (i : Nat) (v : Byte), Memory.wf b.storage →
    (i < cap → ∃ b', memWrite cap b i v = .ok b' ∧ Memory.wf b'.storage ∧ b'.bitCount = b.bitCount ∧ b'.byteLen = b.byteLen ∧
      (i < b.byteLen.toNat → memRead cap b' i = .ok v) ∧ ∀ j, j ≠ i → memRead cap b' j = memRead cap b j) ∧
    (cap ≤ i → memWrite cap b i v = .error (.storageBounds i) ∧ memRead cap b i = .error (.storageBounds i))

/-- Grow: a position whose byte is present changes nothing; else, below the capacity, one zero byte is added at index BYTELEN and
nothing else changes. At p = BITCOUNT < CAP_BITS the byte of p is present or the next one, a byte is added exactly when p mod 8 = 0 and
p ≥ 8, and there is room for it (R54). -/
def Obligations.GrowAddsOneZeroByte : Prop :=
  ∀ (cap : Nat) (b : Slot) (p : Word), 1 ≤ cap → cap ≤ 2 ^ 28 → b.Inv cap →
    (byteIndex p < b.byteLen.toNat → grow cap b p = .ok b) ∧
    (b.byteLen.toNat ≤ byteIndex p → b.byteLen.toNat < cap →
      ∃ g, grow cap b p = .ok g ∧ g.bitCount = b.bitCount ∧ g.byteLen.toNat = b.byteLen.toNat + 1 ∧
        memRead cap g b.byteLen.toNat = .ok 0 ∧ ∀ i, i ≠ b.byteLen.toNat → memRead cap g i = memRead cap b i) ∧
    (p = b.bitCount → p.toNat < 8 * cap →
      byteIndex p ≤ b.byteLen.toNat ∧ (b.byteLen.toNat ≤ byteIndex p ↔ p.toNat % 8 = 0 ∧ 8 ≤ p.toNat) ∧
      (b.byteLen.toNat ≤ byteIndex p → b.byteLen.toNat < cap))

/-- PutBit with room: grow, set or clear the bit under the mask of position BITCOUNT, count it; every earlier bit and every other
byte reads as before (R55). -/
def Obligations.PutBitAppendsOneBit : Prop :=
  ∀ (cap : Nat) (b : Slot) (v : Bool), 1 ≤ cap → cap ≤ 2 ^ 28 → b.Inv cap → b.bitCount.toNat < 8 * cap →
    ∃ b' g old, putBit cap b v = .ok b' ∧ grow cap b b.bitCount = .ok g ∧
      memRead cap g (byteIndex b.bitCount) = .ok old ∧
      memRead cap b' (byteIndex b.bitCount) =
        .ok (if v then old ||| bitMask b.bitCount else old &&& ~~~bitMask b.bitCount) ∧
      b'.bitCount.toNat = b.bitCount.toNat + 1 ∧ b'.byteLen = g.byteLen ∧
      getBit cap b' b.bitCount = .ok v ∧
      (∀ p : Word, p.toNat < b.bitCount.toNat → getBit cap b' p = getBit cap b p) ∧
      ∀ i, i ≠ byteIndex b.bitCount → memRead cap b' i = memRead cap b i

/-- GetBit of a position below BITCOUNT: the byte of the position, under its mask (R56). -/
def Obligations.GetBitReadsMaskedByte : Prop :=
  ∀ (cap : Nat) (b : Slot) (p : Word), 1 ≤ cap → cap ≤ 2 ^ 28 → b.Inv cap → p.toNat < b.bitCount.toNat →
    ∃ v, memRead cap b (byteIndex p) = .ok v ∧ getBit cap b p = .ok (decide (v &&& bitMask p ≠ 0))

/-- A slot with BITCOUNT 0 has BYTELEN 1 and byte 0 = 0x00, however it came to be empty (R26). -/
def Obligations.EmptySlotIsFresh : Prop :=
  ∀ (cap : Nat) (b : Slot), 1 ≤ cap → b.Inv cap → b.bitCount = 0 → b.byteLen = 1 ∧ memRead cap b 0 = .ok 0

/-! ### The host port (10_state.md R30-R36) -/

/-- A host write of `w` to CMD while BUSY = 0 issues: PEND_CMD <- w, PEND_OP <- OPERAND, BUSY <- 1, whatever `w` holds (R30). -/
def Obligations.CmdWriteIdleIssues : Prop :=
  ∀ (s : State) (ts : List Turn) (w : Word) (rest : List HostOp), s.schedule = .host :: ts →
    s.program = .wr ⟨.word, 0x00⟩ w :: rest → s.status.busy = false →
    step s = .next { s with
      schedule := ts, program := rest, pendCmd := w, pendOp := s.operand, status := { s.status with busy := true } }

/-- A host write to CMD while BUSY = 1 is dropped and sets OVR (R31). -/
def Obligations.CmdWriteBusySetsOvr : Prop :=
  ∀ (s : State) (ts : List Turn) (w : Word) (rest : List HostOp), s.schedule = .host :: ts →
    s.program = .wr ⟨.word, 0x00⟩ w :: rest → s.status.busy = true →
    step s = .next { s with schedule := ts, program := rest, status := { s.status with ovr := true } }

/-- A host write to OPERAND, at any time, sets OPERAND and nothing else: PEND_OP stays (R32). -/
def Obligations.OperandWriteSetsOperand : Prop :=
  ∀ (s : State) (ts : List Turn) (w : Word) (rest : List HostOp), s.schedule = .host :: ts →
    s.program = .wr ⟨.word, 0x04⟩ w :: rest →
    step s = .next { s with schedule := ts, program := rest, operand := w }

/-- A host write of `w` to STATUS clears OVR if w[8] = 1; nothing else changes (R34). -/
def Obligations.StatusWriteClearsOvr : Prop :=
  ∀ (s : State) (ts : List Turn) (w : Word) (rest : List HostOp), s.schedule = .host :: ts →
    s.program = .wr ⟨.word, 0x0C⟩ w :: rest →
    step s = .next { s with
      schedule := ts, program := rest, status := { s.status with ovr := if w.getLsbD 8 then false else s.status.ovr } }

/-- Host writes to RESULT, NBUF_REG, CAPBYTES_REG and reserved offsets have no effect (R35). -/
def Obligations.ReadOnlyWritesIgnored : Prop :=
  ∀ (s : State) (ts : List Turn) (off : Nat) (w : Word) (rest : List HostOp), s.schedule = .host :: ts →
    s.program = .wr ⟨.word, off⟩ w :: rest →
    (off = 0x08 ∨ off = 0x10 ∨ off = 0x14 ∨ (0x18 ≤ off ∧ off ≤ 0x3C ∧ off % 4 = 0)) →
    step s = .next { s with schedule := ts, program := rest }

/-- What a host read of each register returns; the read changes nothing but the host's variable. While BUSY = 1 RESULT and ECODE
keep the values of the previous completion: no step that leaves BUSY = 1 changes them (R33). -/
def Obligations.HostReadsReturnRegisters : Prop :=
  (∀ (s : State) (ts : List Turn) (off h : Nat) (rest : List HostOp), s.schedule = .host :: ts →
    s.program = .rd ⟨.word, off⟩ h :: rest → off % 4 = 0 → off ≤ 0x3C →
    step s = .next { s with
      schedule := ts, program := rest,
      hostVars := cellWrite s.hostVars h
        (if off = 0x04 then s.operand else if off = 0x08 then s.result
         else if off = 0x0C then
          BitVec.ofNat 32 (256 * s.status.ovr.toNat + 16 * s.status.ecode.toNat + s.status.busy.toNat)
         else if off = 0x10 then BitVec.ofNat 32 s.slots.length
         else if off = 0x14 then BitVec.ofNat 32 s.capBytes else 0) }) ∧
  ∀ s t : State, step s = .next t → t.status.busy = true → t.result = s.result ∧ t.status.ecode = s.status.ecode

/-- An access that is not an aligned 32-bit access of an offset in 0x00-0x3C is refused: the host has no step (R36). -/
def Obligations.OtherAccessesRefused : Prop :=
  ∀ (s : State) (ts : List Turn) (a : BusAccess) (rest : List HostOp), s.schedule = .host :: ts →
    ¬ (a.kind = .word ∧ a.offset % 4 = 0 ∧ a.offset ≤ 0x3C) →
    (∀ w, s.program = .wr a w :: rest → step s = .refused (.hostAccess a)) ∧
    ∀ h, s.program = .rd a h :: rest → step s = .refused (.hostAccess a)

/-- A host turn always has a step, BUSY or not, except for an access that R36 refuses (R176; that the turn of a host with nothing to do
passes is the model's choice, log 5). -/
def Obligations.HostStepsUnlessRefused : Prop :=
  ∀ (s : State) (ts : List Turn), s.schedule = .host :: ts → (completes (step s) ↔ ¬ s.hostAccessRefused)

/-- WAIT reads STATUS: while BUSY = 1 it stays the host's next operation, with BUSY = 0 the host goes on; nothing else changes
(30_encoding.md R79, R178; that WAIT is one operation of the host is the model's choice, log 6). -/
def Obligations.WaitEndsWhenIdle : Prop :=
  ∀ (s : State) (ts : List Turn) (rest : List HostOp), s.schedule = .host :: ts → s.program = .wait :: rest →
    (s.status.busy = true → step s = .next { s with schedule := ts }) ∧
    (s.status.busy = false → step s = .next { s with schedule := ts, program := rest })

/-! ### The engine step (70_reset_and_hazards.md R177, 60_exceptions.md) -/

/-- A step runs the decoded command: with BUSY = 1 and PEND_CMD decoding to `i`, an engine turn is `exec i`, whether the schedule
says so or is empty (the turn an empty schedule gives is the model's choice, log 4). -/
def Obligations.StepRunsDecodedCommand : Prop :=
  ∀ (s : State) (i : Instr), s.status.busy = true → decodeCmd s.pendCmd = .command i →
    (s.schedule = [] → step s = exec i s) ∧
    ∀ ts, s.schedule = .engine :: ts → step s = exec i { s with schedule := ts }

/-- The engine has a step if and only if BUSY = 1: with BUSY = 0 its turn passes and nothing of the machine changes (R177; that
the turn passes is the model's choice, log 5). -/
def Obligations.IdleEngineTurnPasses : Prop :=
  ∀ (s : State) (ts : List Turn), s.schedule = .engine :: ts → s.status.busy = false → step s = .next { s with schedule := ts }

/-- Every completion clears BUSY and leaves OVR; one that ends with an error changes nothing but BUSY and ECODE; ECODE is not sticky:
the next completion overwrites it, whatever it held (R151). -/
def Obligations.ErrorsAreExact : Prop :=
  ∀ s t : State, engineStep s = .next t →
    (t.status.ecode ≠ 0 → t = { s with status := { s.status with busy := false, ecode := t.status.ecode } }) ∧
    t.status.busy = false ∧ t.status.ovr = s.status.ovr ∧
    ∀ c, engineStep { s with status := { s.status with ecode := c } } = .next t

/-- A slot number not below NBUF, D of any command or S of CLONE and CONCAT, raises BAD_SLOT before anything else (R152). -/
def Obligations.MissingSlotRaisesBadSlot : Prop :=
  ∀ (i : Instr) (s : State), (s.nbuf ≤ i.slot ∨ ∃ c, i.source? = some c ∧ s.nbuf ≤ c) →
    exec i s = .next { s with status := { s.status with busy := false, ecode := 5 } }

/-- A completion reports exactly one code, the first that applies in the order ILLEGAL, BAD_SLOT, WIDTH_INVALID, OUT_OF_RANGE,
CAPACITY; 0 when none applies (R150, R153). -/
def Obligations.FirstErrorIsReported : Prop :=
  ∀ (s : State) (ts : List Turn), s.Inv → s.schedule = .engine :: ts → s.status.busy = true →
    ∃ t, step s = .next t ∧
      t.status.ecode = match decodeCmd s.pendCmd with
        | .illegal _ => 4
        | .command i => (firstError s i).code

/-! ### Construction and the pack engine (40_construction.md, 41_append.md) -/

/-- INIT d leaves slot d with one zero byte and no bits; no other slot and no other register but BUSY and ECODE changes (R100). -/
def Obligations.InitMakesFreshSlot : Prop :=
  ∀ (s : State) (d : Nat), s.Inv → d < s.nbuf →
    exec (.init d) s = .next { s with
      slots := s.slots.set d { storage := [(0, 0#8)], bitCount := 0, byteLen := 1 }
      status := { s.status with busy := false, ecode := 0 } }

/-- APPBIT d, b with room appends the bit `b`; every earlier bit, and every byte but that of position BITCOUNT, reads as before;
nothing outside slot d, BUSY and ECODE changes (R110). -/
def Obligations.AppbitAppendsBit : Prop :=
  ∀ (s : State) (d : Nat) (v : Bool) (b : Slot), s.Inv → s.slots[d]? = some b → b.bitCount.toNat + 1 ≤ 8 * s.capBytes →
    ∃ b', exec (.appbit d v) s = .next { s with
        slots := s.slots.set d b', status := { s.status with busy := false, ecode := 0 } } ∧
      b'.bitCount.toNat = b.bitCount.toNat + 1 ∧ b'.byteLen.toNat = max 1 ((b.bitCount.toNat + 1 + 7) / 8) ∧
      getBit s.capBytes b' b.bitCount = .ok v ∧
      (∀ p : Word, p.toNat < b.bitCount.toNat → getBit s.capBytes b' p = getBit s.capBytes b p) ∧
      ∀ i, i ≠ byteIndex b.bitCount → memRead s.capBytes b' i = memRead s.capBytes b i

/-- APPRUN d, b with n = PEND_OP and room appends n bits `b`; every earlier bit, and every byte that holds none of the n positions,
reads as before; nothing outside slot d, BUSY and ECODE changes (R111). -/
def Obligations.ApprunAppendsRun : Prop :=
  ∀ (s : State) (d : Nat) (v : Bool) (b : Slot), s.Inv → s.slots[d]? = some b →
    b.bitCount.toNat + s.pendOp.toNat ≤ 8 * s.capBytes →
    ∃ b', exec (.apprun d v) s = .next { s with
        slots := s.slots.set d b', status := { s.status with busy := false, ecode := 0 } } ∧
      b'.bitCount.toNat = b.bitCount.toNat + s.pendOp.toNat ∧
      b'.byteLen.toNat = max 1 ((b.bitCount.toNat + s.pendOp.toNat + 7) / 8) ∧
      (∀ j, j < s.pendOp.toNat → getBit s.capBytes b' (BitVec.ofNat 32 (b.bitCount.toNat + j)) = .ok v) ∧
      (∀ p : Word, p.toNat < b.bitCount.toNat → getBit s.capBytes b' p = getBit s.capBytes b p) ∧
      ∀ i, (∀ j, j < s.pendOp.toNat → byteIndex (BitVec.ofNat 32 (b.bitCount.toNat + j)) ≠ i) →
        memRead s.capBytes b' i = memRead s.capBytes b i

/-- The capacity sum of APPRUN does not wrap: n = 0xFFFFFFFF always raises CAPACITY and changes nothing else (R111). -/
def Obligations.HugeRunRaisesCapacity : Prop :=
  ∀ (s : State) (d : Nat) (v : Bool), s.Inv → d < s.nbuf → s.pendOp = 0xFFFFFFFF →
    exec (.apprun d v) s = .next { s with status := { s.status with busy := false, ecode := 3 } }

/-- APPINT d, w with w ≤ 32 and room appends bits w-1 to 0 of PEND_OP in that order; every earlier bit, and every byte that holds none
of the w positions, reads as before; nothing outside slot d, BUSY and ECODE changes (R112). -/
def Obligations.AppintAppendsField : Prop :=
  ∀ (s : State) (d w : Nat) (b : Slot), s.Inv → s.slots[d]? = some b → w ≤ 32 → b.bitCount.toNat + w ≤ 8 * s.capBytes →
    ∃ b', exec (.appint d w) s = .next { s with
        slots := s.slots.set d b', status := { s.status with busy := false, ecode := 0 } } ∧
      b'.bitCount.toNat = b.bitCount.toNat + w ∧ b'.byteLen.toNat = max 1 ((b.bitCount.toNat + w + 7) / 8) ∧
      (∀ j, j < w → getBit s.capBytes b' (BitVec.ofNat 32 (b.bitCount.toNat + j)) =
        .ok (((s.pendOp >>> (w - j - 1)) &&& 1) == 1)) ∧
      (∀ p : Word, p.toNat < b.bitCount.toNat → getBit s.capBytes b' p = getBit s.capBytes b p) ∧
      ∀ i, (∀ j, j < w → byteIndex (BitVec.ofNat 32 (b.bitCount.toNat + j)) ≠ i) →
        memRead s.capBytes b' i = memRead s.capBytes b i

/-- Integer round trip: for w in [1, 32], on success, the bit at BITCOUNT + i is v[w-1-i], RDBIT of each of those positions
returns it, and the w bits read back most significant first spell v mod 2^w (R113). -/
def Obligations.AppintRoundTrip : Prop :=
  ∀ (s t : State) (d w : Nat) (b : Slot), s.Inv → s.slots[d]? = some b → 1 ≤ w → w ≤ 32 →
    exec (.appint d w) s = .next t → t.status.ecode = 0 →
    ∃ b' vs, t.slots[d]? = some b' ∧ vs.length = w ∧
      (∀ i, i < w → getBit t.capBytes b' (BitVec.ofNat 32 (b.bitCount.toNat + i)) = .ok (s.pendOp.getLsbD (w - 1 - i)) ∧
        vs[i]? = some (s.pendOp.getLsbD (w - 1 - i)) ∧
        ∃ u, exec (.rdbit d) { t with pendOp := BitVec.ofNat 32 (b.bitCount.toNat + i) } = .next u ∧ u.status.ecode = 0 ∧
          u.result = if s.pendOp.getLsbD (w - 1 - i) then 1 else 0) ∧
      bitsToNat vs = s.pendOp.toNat % 2 ^ w

/-- The three laws of all append commands: growth only, other slots untouched, and the counters after a successful append of k bits
(R114). -/
def Obligations.AppendLaws : Prop :=
  ∀ (i : Instr) (s t : State) (k : Nat), s.Inv → appendCount s i = some k → exec i s = .next t →
    (∀ e, e ≠ i.slot → t.slots[e]? = s.slots[e]?) ∧
    ∀ b, s.slots[i.slot]? = some b → ∃ b', t.slots[i.slot]? = some b' ∧
      b.bitCount.toNat ≤ b'.bitCount.toNat ∧ b.byteLen.toNat ≤ b'.byteLen.toNat ∧
      (∀ p : Word, p.toNat < b.bitCount.toNat → getBit s.capBytes b' p = getBit s.capBytes b p) ∧
      (t.status.ecode = 0 → b'.bitCount.toNat = b.bitCount.toNat + k ∧
        b'.byteLen.toNat = max 1 ((b'.bitCount.toNat + 7) / 8))

/-! ### The unpack engine (42_read.md) -/

/-- RDBIT d with p = PEND_OP < BITCOUNT: RESULT is GetBit(d, p), 0 or 1; nothing but RESULT, BUSY and ECODE changes (R120). -/
def Obligations.RdbitReadsBit : Prop :=
  ∀ (s : State) (d : Nat) (b : Slot), s.Inv → s.slots[d]? = some b → s.pendOp.toNat < b.bitCount.toNat →
    ∃ v, getBit s.capBytes b s.pendOp = .ok v ∧
      exec (.rdbit d) s = .next { s with
        result := if v then 1 else 0, status := { s.status with busy := false, ecode := 0 } }

/-- RDBIT succeeds for every p in [0, BITCOUNT[d]) and raises OUT_OF_RANGE for every p ≥ BITCOUNT[d], including every p ≥ 2^31
(R121). -/
def Obligations.RdbitRangeLaw : Prop :=
  ∀ (s : State) (d : Nat) (b : Slot), s.Inv → s.slots[d]? = some b →
    (s.pendOp.toNat < b.bitCount.toNat → ∃ t, exec (.rdbit d) s = .next t ∧ t.status.ecode = 0) ∧
    ((b.bitCount.toNat ≤ s.pendOp.toNat ∨ 2 ^ 31 ≤ s.pendOp.toNat) →
      exec (.rdbit d) s = .next { s with status := { s.status with busy := false, ecode := 1 } })

/-- TOBYTES d: RESULT is ceil(BITCOUNT / 8), 0 for an empty slot; nothing but RESULT, BUSY and ECODE changes (R122). -/
def Obligations.TobytesReturnsViewLength : Prop :=
  ∀ (s : State) (d : Nat) (b : Slot), s.Inv → s.slots[d]? = some b →
    ∃ t, exec (.tobytes d) s = .next t ∧ t.result.toNat = (b.bitCount.toNat + 7) / 8 ∧
      t = { s with result := t.result, status := { s.status with busy := false, ecode := 0 } }

/-- RDBYTE of byte i of the view is Σ GetBit(8i+k) << (7-k); positions at or beyond BITCOUNT read 0; nothing but RESULT, BUSY and
ECODE changes (R58, R123). -/
def Obligations.RdbyteSumsGetBits : Prop :=
  ∀ (s : State) (d : Nat) (b : Slot), s.Inv → s.slots[d]? = some b → s.pendOp.toNat < (b.bitCount.toNat + 7) / 8 →
    ∃ f : Nat → Bool,
      (∀ k, k < 8 → getBit s.capBytes b (BitVec.ofNat 32 (8 * s.pendOp.toNat + k)) = .ok (f k)) ∧
      (∀ k, k < 8 → b.bitCount.toNat ≤ 8 * s.pendOp.toNat + k → f k = false) ∧
      exec (.rdbyte d) s = .next { s with
        result := BitVec.ofNat 32 (∑ k ∈ Finset.range 8, (f k).toNat <<< (7 - k))
        status := { s.status with busy := false, ecode := 0 } }

/-- RDBYTE of a byte at or beyond ceil(BITCOUNT / 8) raises OUT_OF_RANGE, so the placeholder byte of an empty slot is not readable
(R123). -/
def Obligations.RdbyteOutsideViewOutOfRange : Prop :=
  ∀ (s : State) (d : Nat) (b : Slot), s.slots[d]? = some b → (b.bitCount.toNat + 7) / 8 ≤ s.pendOp.toNat →
    exec (.rdbyte d) s = .next { s with status := { s.status with busy := false, ecode := 1 } }

/-- LEN d: RESULT is BITCOUNT; nothing but RESULT, BUSY and ECODE changes (R124). -/
def Obligations.LenReturnsBitCount : Prop :=
  ∀ (s : State) (d : Nat) (b : Slot), s.slots[d]? = some b →
    exec (.len d) s = .next { s with result := b.bitCount, status := { s.status with busy := false, ecode := 0 } }

/-! ### Copy and concatenation (43_copy_concat.md) -/

/-- CLONE d, s: d ≠ s makes slot d equal to slot s, d = s changes nothing; nothing outside slot d, BUSY and ECODE changes (R130). -/
def Obligations.CloneCopiesSlot : Prop :=
  ∀ (s : State) (d c : Nat) (src : Slot), s.Inv → d < s.nbuf → s.slots[c]? = some src →
    exec (.clone d c) s = .next { s with
      slots := if d = c then s.slots else s.slots.set d src
      status := { s.status with busy := false, ecode := 0 } }

/-- CONCAT d, s with room: the stream of d, then that of s as it stood before the command, d = s included; every byte of d that holds
none of the appended positions reads as before; nothing outside slot d, BUSY and ECODE changes (R131, R132). -/
def Obligations.ConcatAppendsStream : Prop :=
  ∀ (s : State) (d c : Nat) (b src : Slot), s.Inv → s.slots[d]? = some b → s.slots[c]? = some src →
    b.bitCount.toNat + src.bitCount.toNat ≤ 8 * s.capBytes →
    ∃ b' xs ys, exec (.concat d c) s = .next { s with
        slots := s.slots.set d b', status := { s.status with busy := false, ecode := 0 } } ∧
      bitsOf s.capBytes b = .ok xs ∧ bitsOf s.capBytes src = .ok ys ∧ bitsOf s.capBytes b' = .ok (xs ++ ys) ∧
      b'.bitCount.toNat = b.bitCount.toNat + src.bitCount.toNat ∧
      b'.byteLen.toNat = max 1 ((b.bitCount.toNat + src.bitCount.toNat + 7) / 8) ∧
      ∀ i, (∀ j, j < src.bitCount.toNat → byteIndex (BitVec.ofNat 32 (b.bitCount.toNat + j)) ≠ i) →
        memRead s.capBytes b' i = memRead s.capBytes b i

/-- Concatenation equivalence: on success CONCAT d, s leaves the slots as n successive APPBITs of the bits of s on slot d do (R132). -/
def Obligations.ConcatEqualsSuccessiveAppbits : Prop :=
  ∀ (s : State) (d c : Nat) (b src : Slot), s.Inv → s.slots[d]? = some b → s.slots[c]? = some src →
    b.bitCount.toNat + src.bitCount.toNat ≤ 8 * s.capBytes →
    ∃ xs t u, bitsOf s.capBytes src = .ok xs ∧ exec (.concat d c) s = .next t ∧ appbitEach d xs s = .next u ∧ t.slots = u.slots

/-- Clone independence: after CLONE d, s both slots show the same string, and no later command on d changes slot s (R130, R143). -/
def Obligations.CloneIsIndependent : Prop :=
  ∀ (s t : State) (d c : Nat) (src : Slot), s.Inv → d < s.nbuf → s.slots[c]? = some src → exec (.clone d c) s = .next t →
    t.slots[c]? = some src ∧
    (∃ b cs, t.slots[d]? = some b ∧ bitsAsString s.capBytes b = .ok cs ∧ bitsAsString s.capBytes src = .ok cs) ∧
    ∀ (i : Instr) (v : Word) (u : State), d ≠ c → i.slot = d → exec i { t with pendOp := v } = .next u →
      u.slots[c]? = some src

/-! ### Observation (44_observation.md) -/

/-- bitsAsString has exactly BITCOUNT characters, character p being '1' if GetBit(p) = 1 and '0' otherwise (R140). -/
def Obligations.BitsAsStringShowsStream : Prop :=
  ∀ (cap : Nat) (b : Slot), 1 ≤ cap → cap ≤ 2 ^ 28 → b.Inv cap →
    ∃ cs, bitsAsString cap b = .ok cs ∧ cs.length = b.bitCount.toNat ∧
      ∀ p, p < b.bitCount.toNat → ∃ v, getBit cap b (BitVec.ofNat 32 p) = .ok v ∧ cs[p]? = some (if v then '1' else '0')

/-- describe gives `<empty>` if and only if BITCOUNT = 0 (R143); else the bits, the count in decimal in parentheses (R141). -/
def Obligations.DescribeIsEmptyIffNoBits : Prop :=
  ∀ (cap : Nat) (b : Slot), 1 ≤ cap → cap ≤ 2 ^ 28 → b.Inv cap →
    (describe cap b = .ok ['<', 'e', 'm', 'p', 't', 'y', '>'] ↔ b.bitCount = 0) ∧
    (b.bitCount ≠ 0 → ∃ cs, bitsAsString cap b = .ok cs ∧
      describe cap b = .ok (cs ++ '(' :: (Nat.toDigits 10 b.bitCount.toNat ++ [')'])))

/-! ### Rules of the whole machine -/

/-- An inspecting command changes RESULT, BUSY and ECODE only; a command that is not inspecting, or that ends with an error, leaves
RESULT (20_memory.md R62, 10_state.md R29). -/
def Obligations.InspectingCommandsChangeNoSlot : Prop :=
  ∀ (i : Instr) (s t : State), exec i s = .next t →
    (i.inspecting = true →
      t = { s with result := t.result, status := { s.status with busy := false, ecode := t.status.ecode } }) ∧
    ((i.inspecting = false ∨ t.status.ecode ≠ 0) → t.result = s.result)

/-- The slots change only by reset or by a successful mutating command, and then only the slot that command names (R23; R114, R132; that an empty
schedule gives a busy engine the turn is the model's choice, log 4). -/
def Obligations.OnlyMutatingCommandsChangeSlots : Prop :=
  ∀ s t : State, step s = .next t → t.slots ≠ s.slots →
    (∃ ts, s.schedule = .rst :: ts) ∨
    (s.status.busy = true ∧ (s.schedule = [] ∨ ∃ ts, s.schedule = .engine :: ts) ∧
      ∃ i, decodeCmd s.pendCmd = .command i ∧ i.inspecting = false ∧ t.status.ecode = 0 ∧
        ∀ d, d ≠ i.slot → t.slots[d]? = s.slots[d]?)

/-- NBUF and CAP_BYTES are constant: no step, a reset included, changes them (R27, R40). -/
def Obligations.ParametersNeverChange : Prop :=
  ∀ s t : State, step s = .next t → t.nbuf = s.nbuf ∧ t.capBytes = s.capBytes

/-- From issue to completion the latch PEND_CMD, PEND_OP is held, whatever the host does (R37, R181). -/
def Obligations.PendingLatchIsHeld : Prop :=
  ∀ s t : State, step s = .next t → s.status.busy = true → t.status.busy = true →
    t.pendCmd = s.pendCmd ∧ t.pendOp = s.pendOp

/-- ECODE and RESULT change only by reset or by a completion, and BUSY rises only by an accepted CMD write (R28; that an empty
schedule gives a busy engine the turn is the model's choice, log 4). -/
def Obligations.StatusChangesOnlyAsStated : Prop :=
  ∀ s t : State, step s = .next t →
    ((t.status.ecode ≠ s.status.ecode ∨ t.result ≠ s.result) → (∃ ts, s.schedule = .rst :: ts) ∨
      (s.status.busy = true ∧ t.status.busy = false ∧ (s.schedule = [] ∨ ∃ ts, s.schedule = .engine :: ts))) ∧
    (s.status.busy = false → t.status.busy = true →
      ∃ w rest, s.program = .wr ⟨.word, 0x00⟩ w :: rest ∧ t.pendCmd = w ∧ t.pendOp = s.operand)

/-- OVR is set only by a CMD write while BUSY = 1, which leaves the pending command and ECODE, and cleared only by a STATUS write with
bit 8 set or by reset (R154). -/
def Obligations.OvrIsStickyUntilCleared : Prop :=
  ∀ s t : State, step s = .next t →
    (s.status.ovr = false → t.status.ovr = true → s.status.busy = true ∧ t.status.ecode = s.status.ecode ∧
      t.pendCmd = s.pendCmd ∧ t.pendOp = s.pendOp ∧ ∃ w rest, s.program = .wr ⟨.word, 0x00⟩ w :: rest) ∧
    (s.status.ovr = true → t.status.ovr = false → (∃ ts, s.schedule = .rst :: ts) ∨
      ∃ w rest, s.program = .wr ⟨.word, 0x0C⟩ w :: rest ∧ w.getLsbD 8 = true)

/-- A host write of any register but CMD and the engine's completion commute: either order of the two turns leads to the same outcome,
so the number of such host steps before the completion does not matter (R177, R181). -/
def Obligations.HostWritesCommuteWithCompletion : Prop :=
  ∀ (s : State) (ts : List Turn) (a : BusAccess) (w : Word) (rest : List HostOp), s.status.busy = true →
    s.program = .wr a w :: rest → a.kind = .word → a.offset % 4 = 0 → a.offset ≤ 0x3C → a.offset ≠ 0x00 →
    Host.Core.run Sys2Proof.core 2 { s with schedule := .host :: .engine :: ts } =
      Host.Core.run Sys2Proof.core 2 { s with schedule := .engine :: .host :: ts }

/-- EXEC.I <command>, imm32, in its expansion of 30_encoding.md R81, from an idle machine: OPERAND and PEND_OP are imm32 (R32, R30), the
command runs once on them (R177), WAIT ends, and the host goes on with what is left. That no turn is laid down, so that the host moves
while BUSY = 0 and the engine while BUSY = 1, is the model's choice (log 4), and that WAIT ends in one step is too (log 6): the four steps
are theirs, no rule's. -/
def Obligations.ExecImmediateRunsCommand : Prop :=
  ∀ (s t : State) (i : Instr) (imm : Word) (rest : List HostOp), WellFormed i → s.schedule = [] → s.status.busy = false →
    s.program = execImmOps i imm ++ rest →
    exec i { s with
      operand := imm, pendOp := imm, pendCmd := encode i, program := .wait :: rest
      status := { s.status with busy := true } } = .next t →
    Host.Core.run Sys2Proof.core 4 s = .next { t with program := rest }

/-! ### Reset and the invariants -/

/-- The state after reset, for any legal parameters: every slot fresh, every register 0, NBUF_REG and CAPBYTES_REG the parameters
(R40). -/
def Obligations.ResetValues : Prop :=
  ∀ c : Config, c.Legal →
    (State.resetWith c).slots.length = c.nbuf ∧
    (∀ d, d < c.nbuf → ∃ b, (State.resetWith c).slots[d]? = some b ∧ b.bitCount = 0 ∧ b.byteLen = 1 ∧
      memRead c.capBytes b 0 = .ok 0) ∧
    (State.resetWith c).operand = 0 ∧ (State.resetWith c).result = 0 ∧
    (State.resetWith c).status = { busy := false, ecode := 0, ovr := false } ∧
    (State.resetWith c).pendCmd = 0 ∧ (State.resetWith c).pendOp = 0 ∧
    (hostRead .nbufReg (State.resetWith c)).toNat = c.nbuf ∧ (hostRead .capBytesReg (State.resetWith c)).toNat = c.capBytes

/-- When reset is applied, every piece of BBE state takes its value of R40, whatever the machine was doing; a pending command is
abandoned (R170). -/
def Obligations.ResetEventRestoresResetState : Prop :=
  ∀ (s : State) (ts : List Turn), s.schedule = .rst :: ts →
    ∃ t, step s = .next t ∧ t.capBytes = s.capBytes ∧ t.slots = List.replicate s.nbuf Slot.fresh ∧
      t.operand = 0 ∧ t.result = 0 ∧ t.status = { busy := false, ecode := 0, ovr := false } ∧ t.pendCmd = 0 ∧ t.pendOp = 0

/-- The invariants hold after reset, for every legal choice of the parameters (R25). -/
def Obligations.ResetMeetsInvariants : Prop :=
  ∀ c : Config, c.Legal → (State.resetWith c).Inv

/-- Every step keeps the invariants: INV1, INV2, INV3 and the canonical form of every slot, legal parameters, ECODE at most 5 (R25,
R28). -/
def Obligations.StepKeepsInvariants : Prop :=
  ∀ s t : State, s.Inv → step s = .next t → t.Inv

/-- The only stuck states are the host accesses that R36 refuses: from every state that meets the invariants a step answers a next
state or refuses such an access of the host; it never faults, so no command reads an absent byte (R155, R22). -/
def Obligations.OnlyRefusedAccessesStop : Prop :=
  ∀ s : State, s.Inv → completes (step s) ∨ ∃ a, step s = .refused (.hostAccess a) ∧ ¬ a.Legal ∧ s.hostAccessRefused

/-- The engine refines the source's BitBuffer: on every state that meets the invariants and holds the bit lists `xs`, every command
completes, and its slots, ECODE and RESULT are what the operation on bit lists says; nothing else changes (R3, R84). -/
def Obligations.EngineRefinesBitLists : Prop :=
  ∀ (i : Instr) (s : State) (xs : List (List Bool)), s.Inv → s.Holds xs →
    ∃ t, exec i s = .next t ∧ t.Holds (bufferEffect (8 * s.capBytes) i s.pendOp xs).buffers ∧
      t.status = { s.status with busy := false, ecode := (bufferEffect (8 * s.capBytes) i s.pendOp xs).code.code } ∧
      t.result = (match (bufferEffect (8 * s.capBytes) i s.pendOp xs).result with
        | none => s.result
        | some r => BitVec.ofNat 32 r) ∧
      t = { s with slots := t.slots, result := t.result, status := t.status }
end

