-- ==== Sys2Proof/Laws/Bits.lean ====
section
/-! SUPPORT. The address decoder in numbers (20_memory.md R52, R53), and what the mask does to a byte (R55, R56). -/

namespace Sys2Proof.Machine

theorem byteIndex_eq (p : Word) : byteIndex p = p.toNat / 8 := by
  simp [byteIndex, Nat.shiftRight_eq_div_pow]

theorem bitShift_eq (p : Word) : bitShift p = 7 - p.toNat % 8 := by
  have : p.toNat &&& 7 = p.toNat % 2 ^ 3 := Nat.and_two_pow_sub_one_eq_mod p.toNat 3
  simp [bitShift, this]

theorem bitShift_lt (p : Word) : bitShift p < 8 := by rw [bitShift_eq]; omega

theorem getLsbD_bitMask (p : Word) (j : Nat) (hj : j < 8) : (bitMask p).getLsbD j = decide (j = bitShift p) := by
  have h := bitShift_lt p
  rw [bitMask, BitVec.getLsbD_shiftLeft, BitVec.getLsbD_one]
  simp only [hj, decide_true, Bool.true_and, Nat.zero_lt_succ]
  by_cases e : j = bitShift p
  · simp [e]
  · by_cases lt : j < bitShift p
    · simp [lt, e]
    · have : j - bitShift p ≠ 0 := by omega
      simp [e, this]

/-- GetBit's test picks the bit under the mask (R56). -/
theorem and_bitMask_ne_zero (v : Byte) (p : Word) : ((v &&& bitMask p) != 0) = v.getLsbD (bitShift p) := by
  have h := bitShift_lt p
  cases hv : v.getLsbD (bitShift p) with
  | false =>
    have : v &&& bitMask p = 0 := by
      apply BitVec.eq_of_getLsbD_eq
      intro i hi
      rw [BitVec.getLsbD_and, getLsbD_bitMask p i hi]
      by_cases e : i = bitShift p
      · simp [e, hv]
      · simp [e]
    simp [this]
  | true =>
    have : v &&& bitMask p ≠ 0 := by
      intro h0
      have := congrArg (fun x => BitVec.getLsbD x (bitShift p)) h0
      simp [BitVec.getLsbD_and, getLsbD_bitMask p _ h, hv] at this
    simpa using this

/-- A masked write sets its own bit and leaves the others (R55). -/
theorem getLsbD_setMasked (old : Byte) (p : Word) (v : Bool) (j : Nat) (hj : j < 8) :
    (setMasked old (bitMask p) v).getLsbD j = if j = bitShift p then v else old.getLsbD j := by
  cases v
  · simp only [setMasked, Bool.false_eq_true, if_false, BitVec.getLsbD_and, BitVec.getLsbD_not, hj, decide_true, Bool.true_and,
      getLsbD_bitMask p j hj]
    by_cases e : j = bitShift p <;> simp [e]
  · simp only [setMasked, if_true, BitVec.getLsbD_or, getLsbD_bitMask p j hj]
    by_cases e : j = bitShift p <;> simp [e]

end Sys2Proof.Machine
end

