-- ==== Sys2Proof/Laws/Cells.lean ====
section
/-! SUPPORT. The laws of cell lists: read after write, the canonical form is kept, and two canonical lists that read alike are
equal. -/

namespace Sys2Proof.Machine

variable {β : Type}

theorem cellRead_cellWrite_same (m : List (Nat × β)) (a : Nat) (v : β) : cellRead (cellWrite m a v) a = some v := by
  induction m with
  | nil => simp [cellWrite, cellRead]
  | cons c m ih =>
    obtain ⟨k, u⟩ := c
    rcases lt_trichotomy a k with h | h | h
    · simp [cellWrite, cellRead, h]
    · simp [cellWrite, cellRead, h]
    · simp [cellWrite, cellRead, Nat.not_lt.2 h.le, h.ne', ih]

theorem cellRead_cellWrite_ne (m : List (Nat × β)) {a i : Nat} (v : β) (hi : i ≠ a) :
    cellRead (cellWrite m a v) i = cellRead m i := by
  induction m with
  | nil => simp [cellWrite, cellRead, hi]
  | cons c m ih =>
    obtain ⟨k, u⟩ := c
    rcases lt_trichotomy a k with h | h | h
    · simp [cellWrite, cellRead, h, hi]
    · subst h; simp [cellWrite, cellRead, hi]
    · simp [cellWrite, cellRead, Nat.not_lt.2 h.le, h.ne', ih]

theorem cellRead_cellsBelow (n : Nat) (m : List (Nat × β)) (a : Nat) :
    cellRead (cellsBelow n m) a = if a < n then cellRead m a else none := by
  induction m with
  | nil => simp [cellsBelow, cellRead]
  | cons c m ih =>
    obtain ⟨k, u⟩ := c
    simp only [cellsBelow, List.filter_cons] at ih ⊢
    by_cases hk : k < n
    · simp only [hk, decide_true, if_true, cellRead, ih]
      by_cases ha : a = k
      · simp [ha, hk]
      · simp [ha]
    · simp only [hk, decide_false, Bool.false_eq_true, if_false, ih, cellRead]
      by_cases ha : a = k
      · simp [ha, hk]
      · simp [ha]

theorem cellRead_eq_none_iff (m : List (Nat × β)) (a : Nat) : cellRead m a = none ↔ a ∉ m.map Prod.fst := by
  induction m with
  | nil => simp [cellRead]
  | cons c m ih =>
    obtain ⟨k, u⟩ := c
    by_cases h : a = k
    · simp [cellRead, h]
    · simp only [cellRead, h, if_false, ih, List.map_cons, List.mem_cons, false_or]

/-- The keys of a write are the old keys and the one written. -/
theorem mem_keys_cellWrite (m : List (Nat × β)) (a : Nat) (v : β) (i : Nat) :
    i ∈ (cellWrite m a v).map Prod.fst ↔ i = a ∨ i ∈ m.map Prod.fst := by
  by_cases hi : i = a
  · subst hi
    have h : ¬ cellRead (cellWrite m i v) i = none := by simp [cellRead_cellWrite_same]
    rw [cellRead_eq_none_iff, not_not] at h
    simp [h]
  · have h := cellRead_cellWrite_ne m v hi
    have := congrArg (· = none) h
    simp only [cellRead_eq_none_iff, eq_iff_iff, not_iff_not] at this
    rw [this]
    simp [hi]

/-- A write keeps the canonical form. -/
theorem cellsWf_cellWrite {m : List (Nat × β)} (h : cellsWf m) (a : Nat) (v : β) : cellsWf (cellWrite m a v) := by
  induction m with
  | nil => simp [cellWrite]
  | cons c m ih =>
    obtain ⟨k, u⟩ := c
    obtain ⟨hk, hm⟩ := List.pairwise_cons.1 h
    rcases lt_trichotomy a k with hak | hak | hak
    · simp only [cellWrite, hak, if_true]
      refine List.pairwise_cons.2 ⟨fun c hc => ?_, h⟩
      rcases List.mem_cons.1 hc with rfl | hc
      · exact hak
      · exact hak.trans (hk c hc)
    · subst hak
      simp only [cellWrite, lt_irrefl, if_false, if_true]
      exact List.pairwise_cons.2 ⟨hk, hm⟩
    · simp only [cellWrite, Nat.not_lt.2 hak.le, if_false, hak.ne']
      refine List.pairwise_cons.2 ⟨fun c hc => ?_, ih hm⟩
      have hc' := (mem_keys_cellWrite m a v c.1).1 (List.mem_map_of_mem hc)
      rcases hc' with hc' | hc'
      · exact hc' ▸ hak
      · obtain ⟨c', hc', he⟩ := List.mem_map.1 hc'
        exact he ▸ hk c' hc'

/-- Dropping the cells from a key on keeps the canonical form. -/
theorem cellsWf_cellsBelow {m : List (Nat × β)} (h : cellsWf m) (n : Nat) : cellsWf (cellsBelow n m) :=
  List.Pairwise.sublist List.filter_sublist h

/-- The keys of a canonical list, in order, are a strictly rising list. -/
theorem cellsWf_iff_keys (m : List (Nat × β)) : cellsWf m ↔ (m.map Prod.fst).Pairwise (· < ·) := by
  rw [List.pairwise_map]

/-- Two strictly rising lists of numbers with the same members are equal. -/
theorem rising_ext {l l' : List Nat} (h : l.Pairwise (· < ·)) (h' : l'.Pairwise (· < ·)) (hm : ∀ i, i ∈ l ↔ i ∈ l') : l = l' :=
  (List.perm_of_nodup_nodup_toFinset_eq (h.imp (fun h => h.ne)) (h'.imp (fun h => h.ne))
    (by ext i; simp [hm])).eq_of_pairwise (fun _ _ _ _ h h' => absurd h (lt_asymm h')) h h'

/-- Two canonical lists with the same keys that read alike are equal. -/
theorem cells_ext {m m' : List (Nat × β)} (h : cellsWf m) (hk : m.map Prod.fst = m'.map Prod.fst)
    (hr : ∀ i ∈ m.map Prod.fst, cellRead m i = cellRead m' i) : m = m' := by
  induction m generalizing m' with
  | nil => simpa using hk.symm
  | cons c m ih =>
    obtain ⟨k, u⟩ := c
    cases m' with
    | nil => simp at hk
    | cons c' m' =>
      obtain ⟨k', u'⟩ := c'
      simp only [List.map_cons, List.cons.injEq] at hk
      obtain ⟨rfl, hk⟩ := hk
      have hu : u = u' := by simpa [cellRead] using hr k (by simp)
      subst hu
      obtain ⟨hlt, hm⟩ := List.pairwise_cons.1 h
      rw [ih hm hk fun i hi => ?_]
      obtain ⟨c, hc, rfl⟩ := List.mem_map.1 hi
      have := hr c.1 (by simp [hi])
      simpa [cellRead, (hlt c hc).ne'] using this

end Sys2Proof.Machine
end

