-- ==== Sys2Proof/Laws/Slot.lean ====
section
/-! SUPPORT. What each slot operation can do on a slot that meets the invariants: MemRead, MemWrite, Grow, PutBit, GetBit and the
loops over them never fault, and their results are said once, for the proofs about commands to cite. -/

namespace Sys2Proof.Machine

/-- A capacity R6 allows. -/
abbrev CapOk (cap : Nat) : Prop := 1 ≤ cap ∧ cap ≤ 2 ^ 28

variable {cap : Nat} {b b' src : Slot}

theorem Slot.Inv.wf (h : b.Inv cap) : Memory.wf b.storage := by
  rw [Memory.wf, cellsWf_iff_keys, h.2.2.1]; exact List.pairwise_lt_range

theorem Slot.Inv.read_some (h : b.Inv cap) {i : Nat} (hi : i < b.byteLen.toNat) : ∃ v, cellRead b.storage i = some v := by
  cases hv : cellRead b.storage i with
  | some v => exact ⟨v, rfl⟩
  | none => rw [cellRead_eq_none_iff, h.2.2.1] at hv; simp [hi] at hv

theorem Slot.Inv.read_none (h : b.Inv cap) {i : Nat} (hi : b.byteLen.toNat ≤ i) : cellRead b.storage i = none := by
  rw [cellRead_eq_none_iff, h.2.2.1]; simpa using hi

theorem Slot.Inv.len_eq (h : b.Inv cap) : b.byteLen.toNat = max 1 ((b.bitCount.toNat + 7) / 8) := h.2.1

theorem Slot.Inv.byteLen_le (h : b.Inv cap) (hc : CapOk cap) : b.byteLen.toNat ≤ cap := by
  have h1 := h.1; have h2 := h.len_eq; omega

theorem Slot.Inv.byteLen_pos (h : b.Inv cap) : 1 ≤ b.byteLen.toNat := by
  have h2 := h.len_eq; omega

theorem Slot.Inv.count_le (h : b.Inv cap) : b.bitCount.toNat ≤ 8 * b.byteLen.toNat := by
  have h2 := h.len_eq; omega

theorem Slot.Inv.count_lt (h : b.Inv cap) (hc : CapOk cap) : b.bitCount.toNat < 2 ^ 32 - 1 := by
  have h1 := h.1; omega

/-- Counting one on in a register that is not full. -/
theorem toNat_succ {w : Word} (h : w.toNat < 2 ^ 32 - 1) : (w + 1).toNat = w.toNat + 1 := by
  have h1 : (1 : Word).toNat = 1 := rfl
  rw [BitVec.toNat_add, h1, Nat.mod_eq_of_lt (by omega)]

/-- A fresh slot meets the invariants, whatever the capacity (10_state.md R40). -/
theorem Slot.fresh_inv (cap : Nat) : Slot.fresh.Inv cap := by
  refine ⟨by simp [Slot.fresh], by decide, by decide, by decide⟩

/-- MemRead of a byte that is present (20_memory.md R51). -/
theorem memRead_present (h : b.Inv cap) (hc : CapOk cap) {i : Nat} (hi : i < b.byteLen.toNat) :
    ∃ v, cellRead b.storage i = some v ∧ memRead cap b i = .ok v := by
  obtain ⟨v, hv⟩ := h.read_some hi
  have := h.byteLen_le hc
  refine ⟨v, hv, ?_⟩
  rw [memRead, if_neg (by omega), if_neg (by omega), hv]

/-- MemRead of a byte that is absent faults (10_state.md R22; log 2). -/
theorem memRead_absent {i : Nat} (hi : b.byteLen.toNat ≤ i) : ∃ f, memRead cap b i = .error f := by
  by_cases hc : cap ≤ i
  · exact ⟨_, if_pos hc⟩
  · exact ⟨.absentByte i, by simp only [memRead, hc, hi, if_true, if_false]⟩

/-- MemWrite inside the capacity (20_memory.md R51). -/
theorem memWrite_ok {i : Nat} (hi : i < cap) (b : Slot) (v : Byte) :
    memWrite cap b i v = .ok { b with storage := cellWrite b.storage i v } := if_neg (by omega)

/-- The stored bit of a present position. -/
theorem Slot.Inv.bit_some (h : b.Inv cap) {p : Nat} (hp : p < 8 * b.byteLen.toNat) : ∃ v, storedBit b.storage p = some v := by
  obtain ⟨v, hv⟩ := h.read_some (i := p / 8) (by omega)
  exact ⟨_, by rw [storedBit, hv]; rfl⟩

/-- GetBit of a present position gives the stored bit (20_memory.md R56). -/
theorem getBit_present (h : b.Inv cap) (hc : CapOk cap) {p : Nat} (hp : p < 8 * b.byteLen.toNat) :
    ∃ v, storedBit b.storage p = some v ∧ getBit cap b (BitVec.ofNat 32 p) = .ok v := by
  have hle := h.byteLen_le hc
  have hn : (BitVec.ofNat 32 p).toNat = p := by simp only [BitVec.toNat_ofNat]; omega
  obtain ⟨v, hv, hr⟩ := memRead_present h hc (i := p / 8) (by omega)
  refine ⟨v.getLsbD (7 - p % 8), by rw [storedBit, hv]; rfl, ?_⟩
  simp only [getBit, byteIndex_eq, hn, hr, and_bitMask_ne_zero, bitShift_eq]

theorem getBit_eq_of_bit (h : b.Inv cap) (hc : CapOk cap) {p : Nat} {v : Bool} (hp : p < 8 * b.byteLen.toNat)
    (hv : storedBit b.storage p = some v) : getBit cap b (BitVec.ofNat 32 p) = .ok v := by
  obtain ⟨u, hu, hg⟩ := getBit_present h hc hp
  rw [hv] at hu; cases hu; exact hg

/-- Appending the key one past the end of a canonical list `0, 1, ..., n - 1`. -/
theorem keys_append {m : Memory} {n : Nat} (h : m.map Prod.fst = List.range n) (v : Byte) :
    (cellWrite m n v).map Prod.fst = List.range (n + 1) := by
  have hm : cellsWf m := by rw [cellsWf_iff_keys, h]; exact List.pairwise_lt_range
  apply rising_ext ((cellsWf_iff_keys _).1 (cellsWf_cellWrite hm n v)) List.pairwise_lt_range
  intro i; rw [mem_keys_cellWrite, h]; simp only [List.mem_range]; omega

/-- Writing a key that is there keeps the keys. -/
theorem keys_overwrite {m : Memory} {n i : Nat} (h : m.map Prod.fst = List.range n) (hi : i < n) (v : Byte) :
    (cellWrite m i v).map Prod.fst = List.range n := by
  have hm : cellsWf m := by rw [cellsWf_iff_keys, h]; exact List.pairwise_lt_range
  apply rising_ext ((cellsWf_iff_keys _).1 (cellsWf_cellWrite hm i v)) List.pairwise_lt_range
  intro j; rw [mem_keys_cellWrite, h]; simp only [List.mem_range]; omega

/-- What appending the bits `vs` to `b` makes of it (41_append.md R114): the invariants, the new count, the old bits, the new bits,
and every byte outside the bytes written as before. -/
structure Appended (cap : Nat) (b : Slot) (vs : List Bool) (b' : Slot) : Prop where
  inv : b'.Inv cap
  count : b'.bitCount.toNat = b.bitCount.toNat + vs.length
  old : ∀ p, p < b.bitCount.toNat → storedBit b'.storage p = storedBit b.storage p
  new : ∀ i (h : i < vs.length), storedBit b'.storage (b.bitCount.toNat + i) = some vs[i]
  frame : ∀ i, (∀ j, j < vs.length → (b.bitCount.toNat + j) / 8 ≠ i) → cellRead b'.storage i = cellRead b.storage i

/-- Grow at the append position (20_memory.md R54): one zero byte exactly when that position's byte is not present. -/
theorem grow_at_end (h : b.Inv cap) (hc : CapOk cap) (hroom : b.bitCount.toNat < 8 * cap) :
    ∃ g, grow cap b b.bitCount = .ok g ∧ g.bitCount = b.bitCount ∧ g.byteLen.toNat = ceil8 (b.bitCount.toNat + 1) ∧
      g.storage.map Prod.fst = List.range g.byteLen.toNat ∧
      (∀ i, i ≠ b.byteLen.toNat → cellRead g.storage i = cellRead b.storage i) ∧
      (∀ p, p < 8 * g.byteLen.toNat → b.bitCount.toNat ≤ p → storedBit g.storage p = some false) := by
  have h2 := h.len_eq
  have hle := h.byteLen_le hc
  unfold ceil8
  by_cases hg : b.byteLen.toNat ≤ byteIndex b.bitCount
  · have hidx : b.byteLen.toNat = b.bitCount.toNat / 8 := by rw [byteIndex_eq] at hg; omega
    have hlt : b.byteLen.toNat < cap := by omega
    have hsucc : (b.byteLen + 1).toNat = b.byteLen.toNat + 1 := toNat_succ (by omega)
    refine ⟨{ b with storage := cellWrite b.storage b.byteLen.toNat 0, byteLen := b.byteLen + 1 },
      by rw [grow, if_pos hg, memWrite_ok hlt], rfl, ?_, ?_, ?_, ?_⟩
    · show (b.byteLen + 1).toNat = _; omega
    · show _ = List.range (b.byteLen + 1).toNat
      rw [hsucc]; exact keys_append h.2.2.1 0
    · intro i hi; exact cellRead_cellWrite_ne _ _ hi
    · intro p hp hge
      have hp' : p < 8 * (b.byteLen + 1).toNat := hp
      have hpi : p / 8 = b.byteLen.toNat := by omega
      show storedBit (cellWrite b.storage b.byteLen.toNat 0) p = _
      rw [storedBit, hpi, cellRead_cellWrite_same]; simp
  · have hlt : byteIndex b.bitCount < b.byteLen.toNat := by omega
    rw [byteIndex_eq] at hlt
    refine ⟨b, if_neg hg, rfl, by omega, h.2.2.1, fun _ _ => rfl, fun p hp hge => h.2.2.2 p hp hge⟩

/-- PutBit on a slot with room (20_memory.md R55). -/
theorem putBit_ok (h : b.Inv cap) (hc : CapOk cap) (hroom : b.bitCount.toNat < 8 * cap) (v : Bool) :
    ∃ b', putBit cap b v = .ok b' ∧ Appended cap b [v] b' := by
  obtain ⟨g, hg, hgc, hgl, hgk, hgo, hgz⟩ := grow_at_end h hc hroom
  have hle := h.byteLen_le hc
  have h2 := h.len_eq
  have hcnt := h.count_lt hc
  unfold ceil8 at hgl
  have hi : b.bitCount.toNat / 8 < g.byteLen.toNat := by omega
  have hcap : b.bitCount.toNat / 8 < cap := by omega
  obtain ⟨old, hold⟩ : ∃ old, cellRead g.storage (b.bitCount.toNat / 8) = some old := by
    cases hv : cellRead g.storage (b.bitCount.toNat / 8) with
    | some u => exact ⟨u, rfl⟩
    | none => rw [cellRead_eq_none_iff, hgk] at hv; exact absurd (List.mem_range.2 hi) hv
  have hread : memRead cap g (b.bitCount.toNat / 8) = .ok old := by
    rw [memRead, if_neg (by omega), if_neg (by omega), hold]
  set nb := setMasked old (bitMask b.bitCount) v with hnb
  set st := cellWrite g.storage (b.bitCount.toNat / 8) nb with hst
  have hsucc : (b.bitCount + 1).toNat = b.bitCount.toNat + 1 := toNat_succ hcnt
  have hbit : ∀ p, p ≠ b.bitCount.toNat → storedBit st p = storedBit g.storage p := by
    intro p hp
    unfold storedBit
    by_cases hpi : p / 8 = b.bitCount.toNat / 8
    · rw [hpi, hst, cellRead_cellWrite_same, hold]
      have hj : 7 - p % 8 ≠ bitShift b.bitCount := by rw [bitShift_eq]; omega
      simp only [Option.map_some, hnb, getLsbD_setMasked old b.bitCount v (7 - p % 8) (by omega), hj, if_false]
    · rw [hst, cellRead_cellWrite_ne _ _ hpi]
  have hself : storedBit st b.bitCount.toNat = some v := by
    rw [storedBit, hst, cellRead_cellWrite_same]
    simp only [Option.map_some, hnb, ← bitShift_eq, getLsbD_setMasked old b.bitCount v _ (bitShift_lt _), if_true]
  have hframe : ∀ i, i ≠ b.bitCount.toNat / 8 → cellRead st i = cellRead b.storage i := by
    intro i hne
    rw [hst, cellRead_cellWrite_ne _ _ hne]
    by_cases hib : i = b.byteLen.toNat
    · have : g.byteLen.toNat ≤ i := by omega
      rw [h.read_none (by omega)]
      rw [cellRead_eq_none_iff, hgk]; simpa using this
    · exact hgo i hib
  refine ⟨{ g with storage := st, bitCount := b.bitCount + 1 }, ?_, ?_, ?_, ?_, ?_, ?_⟩
  · rw [putBit, hg]; simp only [byteIndex_eq, hread, memWrite_ok hcap]; rfl
  · refine ⟨?_, ?_, ?_, ?_⟩
    · show (b.bitCount + 1).toNat ≤ _; omega
    · show g.byteLen.toNat = max 1 (ceil8 (b.bitCount + 1).toNat)
      unfold ceil8; omega
    · exact keys_overwrite hgk hi nb
    · intro p hp hge
      have hge' : (b.bitCount + 1).toNat ≤ p := hge
      show storedBit st p = _
      rw [hbit p (by omega)]; exact hgz p hp (by omega)
  · show (b.bitCount + 1).toNat = _; simpa using hsucc
  · intro p hp
    show storedBit st p = _
    rw [hbit p (by omega)]
    have : p / 8 ≠ b.byteLen.toNat := by omega
    rw [storedBit, hgo _ this, storedBit]
  · intro i hi
    have : i = 0 := by simpa using hi
    subst this
    simpa using hself
  · intro i hi
    have := hi 0 (by simp)
    exact hframe i (by simp only [Nat.add_zero] at this; omega)

theorem Appended.nil (h : b.Inv cap) : Appended cap b [] b :=
  ⟨h, by simp, fun _ _ => rfl, fun i hi => by simp at hi, fun _ _ => rfl⟩

/-- MemRead outside the bytes written reads as before, absent bytes included. -/
theorem Appended.memRead_frame {vs : List Bool} (h : b.Inv cap) (ha : Appended cap b vs b') {i : Nat}
    (hi : ∀ j, j < vs.length → (b.bitCount.toNat + j) / 8 ≠ i) : memRead cap b' i = memRead cap b i := by
  have hc := ha.count
  have hl := h.len_eq
  have hl' := ha.inv.len_eq
  have hlen : b'.byteLen.toNat ≤ i ↔ b.byteLen.toNat ≤ i := by
    constructor
    · omega
    · intro hle
      by_contra hlt
      exact hi (8 * i - b.bitCount.toNat) (by omega) (by omega)
  simp only [memRead, ha.frame i hi, hlen]

/-- Appends compose. -/
theorem Appended.trans {b₁ b₂ : Slot} {vs ws : List Bool} (h₁ : Appended cap b vs b₁) (h₂ : Appended cap b₁ ws b₂) :
    Appended cap b (vs ++ ws) b₂ := by
  have c₁ := h₁.count
  refine ⟨h₂.inv, by rw [h₂.count, c₁, List.length_append]; omega, fun p hp => ?_, fun i hi => ?_, fun i hi => ?_⟩
  · rw [h₂.old p (by omega), h₁.old p hp]
  · rw [List.length_append] at hi
    by_cases hv : i < vs.length
    · rw [h₂.old _ (by omega), h₁.new i hv, List.getElem_append_left hv]
    · have := h₂.new (i - vs.length) (by omega)
      rw [c₁, show b.bitCount.toNat + vs.length + (i - vs.length) = b.bitCount.toNat + i by omega] at this
      rw [this, List.getElem_append_right (by omega)]
  · rw [List.length_append] at hi
    rw [h₂.frame i fun j hj => by have := hi (vs.length + j) (by omega); rw [c₁]; rwa [Nat.add_assoc],
      h₁.frame i fun j hj => hi j (by omega)]

/-- PutBit of a list of bits on a slot with room (41_append.md R111, R112). -/
theorem putBits_ok (hc : CapOk cap) : ∀ (vs : List Bool) {b : Slot}, b.Inv cap → b.bitCount.toNat + vs.length ≤ 8 * cap →
    ∃ b', putBits cap vs b = .ok b' ∧ Appended cap b vs b'
  | [], b, h, _ => ⟨b, rfl, .nil h⟩
  | v :: vs, b, h, hroom => by
    rw [List.length_cons] at hroom
    obtain ⟨b₁, e₁, a₁⟩ := putBit_ok h hc (by omega) v
    have c₁ := a₁.count
    obtain ⟨b₂, e₂, a₂⟩ := putBits_ok hc vs a₁.inv (by rw [c₁, List.length_singleton]; omega)
    exact ⟨b₂, by rw [putBits, e₁]; exact e₂, a₁.trans a₂⟩

/-- The bits of a slot, as storage holds them. -/
def streamBits (b : Slot) : List Bool := (List.range b.bitCount.toNat).map fun p => (storedBit b.storage p).getD false

@[simp] theorem length_streamBits (b : Slot) : (streamBits b).length = b.bitCount.toNat := by simp [streamBits]

theorem Slot.Inv.streamBits_get (h : b.Inv cap) {p : Nat} (hp : p < b.bitCount.toNat) :
    storedBit b.storage p = some ((streamBits b)[p]'(by simpa using hp)) := by
  obtain ⟨v, hv⟩ := h.bit_some (p := p) (by have := h.count_le; omega)
  simp [streamBits, hv]

/-- An append appends to the stream. -/
theorem Appended.stream {vs : List Bool} (h : b.Inv cap) (ha : Appended cap b vs b') : streamBits b' = streamBits b ++ vs := by
  have hcnt := ha.count
  apply List.ext_getElem (by simp [hcnt])
  intro i h₁ h₂
  have hi : i < b'.bitCount.toNat := by simpa using h₁
  have e := ha.inv.streamBits_get hi
  by_cases hlt : i < b.bitCount.toNat
  · rw [List.getElem_append_left (by simpa using hlt)]
    rw [ha.old i hlt, h.streamBits_get hlt] at e
    exact (Option.some.inj e).symm
  · rw [List.getElem_append_right (by simpa using hlt)]
    have := ha.new (i - b.bitCount.toNat) (by omega)
    rw [show b.bitCount.toNat + (i - b.bitCount.toNat) = i by omega, e] at this
    simpa using Option.some.inj this

theorem getBits_ok (h : b.Inv cap) (hc : CapOk cap) : ∀ ps : List Nat, (∀ p ∈ ps, p < b.bitCount.toNat) →
    getBits cap b ps = .ok (ps.map fun p => (storedBit b.storage p).getD false)
  | [], _ => rfl
  | p :: ps, hp => by
    obtain ⟨v, hv, hg⟩ := getBit_present h hc (p := p) (by have := h.count_le; have := hp p (by simp); omega)
    rw [getBits, hg]
    simp [getBits_ok h hc ps fun q hq => hp q (by simp [hq]), hv]

/-- bitsOf reads the stream (44_observation.md R140). -/
theorem bitsOf_ok (h : b.Inv cap) (hc : CapOk cap) : bitsOf cap b = .ok (streamBits b) :=
  getBits_ok h hc _ fun p hp => by simpa using hp

/-- Two slots that meet the invariants and hold the same stream are equal: the stream determines the storage. -/
theorem slot_ext (h : b.Inv cap) (h' : b'.Inv cap) (hs : streamBits b = streamBits b') : b = b' := by
  have hcnt : b.bitCount.toNat = b'.bitCount.toNat := by simpa using congrArg List.length hs
  have hlen : b.byteLen.toNat = b'.byteLen.toNat := by rw [h.2.1, h'.2.1, hcnt]
  have hbit : ∀ p, p < 8 * b.byteLen.toNat → storedBit b.storage p = storedBit b'.storage p := by
    intro p hp
    by_cases hlt : p < b.bitCount.toNat
    · rw [h.streamBits_get hlt, h'.streamBits_get (hcnt ▸ hlt)]
      simp [hs]
    · rw [h.2.2.2 p hp (by omega), h'.2.2.2 p (by omega) (by omega)]
  have hst : b.storage = b'.storage := by
    apply cells_ext h.wf (by rw [h.2.2.1, h'.2.2.1, hlen])
    intro i hi
    rw [h.2.2.1, List.mem_range] at hi
    obtain ⟨v, hv⟩ := h.read_some hi
    obtain ⟨v', hv'⟩ := h'.read_some (hlen ▸ hi)
    rw [hv, hv']
    congr 1
    apply BitVec.eq_of_getLsbD_eq
    intro j hj
    have := hbit (8 * i + (7 - j)) (by omega)
    rw [storedBit, storedBit, show (8 * i + (7 - j)) / 8 = i by omega, hv, hv',
      show 7 - (8 * i + (7 - j)) % 8 = j by omega] at this
    simpa using this
  cases b; cases b'
  simp only [Slot.mk.injEq]
  exact ⟨hst, BitVec.eq_of_toNat_eq hcnt, BitVec.eq_of_toNat_eq hlen⟩

/-- CONCAT's loop from another slot is PutBit of the bits it reads (43_copy_concat.md R131). -/
theorem concatBits_other (hs : src.Inv cap) (hc : CapOk cap) : ∀ (ps : List Nat) (b : Slot), (∀ p ∈ ps, p < src.bitCount.toNat) →
    concatBits cap false src ps b = putBits cap (ps.map fun p => (storedBit src.storage p).getD false) b
  | [], _, _ => rfl
  | p :: ps, b, hp => by
    obtain ⟨v, hv, hg⟩ := getBit_present hs hc (p := p) (by have := hs.count_le; have := hp p (by simp); omega)
    simp only [concatBits, Bool.false_eq_true, if_false, hg, List.map_cons, hv, Option.getD_some, putBits]
    cases putBit cap b v with
    | error f => rfl
    | ok b' => exact concatBits_other hs hc ps b' fun q hq => hp q (by simp [hq])

/-- CONCAT's loop onto itself is PutBit of the bits that stood there first (43_copy_concat.md R132): appends do not change them. -/
theorem concatBits_self (h₀ : src.Inv cap) (hc : CapOk cap) : ∀ (ps : List Nat) {b : Slot} {vs : List Bool},
    Appended cap src vs b → (∀ p ∈ ps, p < src.bitCount.toNat) → b.bitCount.toNat + ps.length ≤ 8 * cap →
    concatBits cap true src ps b = putBits cap (ps.map fun p => (storedBit src.storage p).getD false) b
  | [], _, _, _, _, _ => rfl
  | p :: ps, b, vs, ha, hp, hroom => by
    have hpn := hp p (by simp)
    have hcnt := ha.count
    obtain ⟨v, hv, -⟩ := getBit_present h₀ hc (p := p) (by have := h₀.count_le; omega)
    have hg : getBit cap b (BitVec.ofNat 32 p) = .ok v :=
      getBit_eq_of_bit ha.inv hc (by have := ha.inv.count_le; omega) (by rw [ha.old p hpn, hv])
    rw [List.length_cons] at hroom
    obtain ⟨b', e, a⟩ := putBit_ok ha.inv hc (by omega) v
    have hcnt' := a.count
    simp only [concatBits, if_true, hg, List.map_cons, hv, Option.getD_some, putBits, e]
    exact concatBits_self h₀ hc ps (ha.trans a) (fun q hq => hp q (by simp [hq])) (by simp only [List.length_singleton] at hcnt'; omega)

/-- CONCAT's loop on slots with room: the destination's stream, then the source's (43_copy_concat.md R131, R132). -/
theorem concatBits_ok (h : b.Inv cap) (hs : src.Inv cap) (hc : CapOk cap) (self : Bool) (hself : self = true → src = b)
    (hroom : b.bitCount.toNat + src.bitCount.toNat ≤ 8 * cap) :
    ∃ b', concatBits cap self src (List.range src.bitCount.toNat) b = .ok b' ∧ Appended cap b (streamBits src) b' := by
  obtain ⟨b', e, a⟩ := putBits_ok hc (streamBits src) h (by simpa using hroom)
  refine ⟨b', ?_, a⟩
  cases self with
  | false => rw [concatBits_other hs hc _ _ fun p hp => by simpa using hp]; exact e
  | true =>
    obtain rfl := hself rfl
    rw [concatBits_self hs hc _ (.nil hs) (fun p hp => by simpa using hp) (by simpa using hroom)]; exact e

/-- CLONE's loop: every index of the list holds the source's byte, every other byte as before; indices outside the list keep
their presence (43_copy_concat.md R130). -/
theorem copyBytes_ok (hs : src.Inv cap) (hc : CapOk cap) : ∀ (is : List Nat) (b : Slot), (∀ i ∈ is, i < src.byteLen.toNat) →
    cellsWf b.storage → ∃ b', copyBytes cap src is b = .ok b' ∧ cellsWf b'.storage ∧
      ∀ i, cellRead b'.storage i = if i ∈ is then cellRead src.storage i else cellRead b.storage i
  | [], b, _, hw => ⟨b, rfl, hw, fun i => by simp⟩
  | i :: is, b, hi, hw => by
    have hlt := hi i (by simp)
    have hle := hs.byteLen_le hc
    obtain ⟨v, hv, hr⟩ := memRead_present hs hc hlt
    obtain ⟨b', e, hw', hb'⟩ := copyBytes_ok hs hc is { b with storage := cellWrite b.storage i v }
      (fun j hj => hi j (by simp [hj])) (cellsWf_cellWrite hw i v)
    refine ⟨b', by rw [copyBytes, hr]; simp only [memWrite_ok (show i < cap by omega)]; exact e, hw', fun j => ?_⟩
    rw [hb' j]
    by_cases hj : j ∈ is
    · simp [hj]
    · by_cases hji : j = i
      · subst hji; simp [hj, hv, cellRead_cellWrite_same]
      · simp [hj, hji, cellRead_cellWrite_ne]

/-- CLONE makes its destination equal to its source (43_copy_concat.md R130). -/
theorem cloneSlot_ok (h : b.Inv cap) (hs : src.Inv cap) (hc : CapOk cap) : cloneSlot cap src b = .ok src := by
  obtain ⟨c, e, hw, hr⟩ := copyBytes_ok hs hc (List.range src.byteLen.toNat) b (by simp) h.wf
  have hst : cellsBelow src.byteLen.toNat c.storage = src.storage := by
    have hw' := cellsWf_cellsBelow hw src.byteLen.toNat
    have hrd : ∀ i, cellRead (cellsBelow src.byteLen.toNat c.storage) i = cellRead src.storage i := by
      intro i
      rw [cellRead_cellsBelow, hr]
      by_cases hi : i < src.byteLen.toNat
      · simp [hi]
      · simp [hi, hs.read_none (Nat.le_of_not_lt hi)]
    refine cells_ext hw' (rising_ext ((cellsWf_iff_keys _).1 hw') ((cellsWf_iff_keys _).1 hs.wf) fun i => ?_) fun i _ => hrd i
    have := congrArg (· = none) (hrd i)
    simp only [cellRead_eq_none_iff, eq_iff_iff, not_iff_not] at this
    exact this
  rw [cloneSlot, e]
  simp only [setByteLen, hst]

/-- INIT makes its slot fresh (40_construction.md R100). -/
theorem initSlot_ok (h : b.Inv cap) (hc : CapOk cap) : initSlot cap b = .ok Slot.fresh := by
  have hw := cellsWf_cellWrite h.wf 0 (0x00 : Byte)
  have hst : cellsBelow 1 (cellWrite b.storage 0 0x00) = [(0, 0#8)] := by
    have hw' := cellsWf_cellsBelow hw 1
    have hrd : ∀ i, cellRead (cellsBelow 1 (cellWrite b.storage 0 0x00)) i = cellRead [(0, 0#8)] i := by
      intro i
      rw [cellRead_cellsBelow]
      by_cases hi : i = 0
      · subst hi; simp [cellRead_cellWrite_same, cellRead]
      · simp [hi, cellRead]
    refine cells_ext hw' (rising_ext ((cellsWf_iff_keys _).1 hw') (by simp) fun i => ?_) fun i _ => hrd i
    have := congrArg (· = none) (hrd i)
    simp only [cellRead_eq_none_iff, eq_iff_iff, not_iff_not] at this
    exact this
  rw [initSlot, memWrite_ok (show 0 < cap by omega)]
  show Except.ok _ = Except.ok _
  rw [Slot.fresh, ← hst]
  rfl

end Sys2Proof.Machine
end

