-- ==== Sys2Proof/Laws/State.lean ====
section
/-! SUPPORT. One lemma per field per update of State and STATUS, so that no proof unfolds a record update. -/

namespace Sys2Proof.Machine

variable (s : State) (d h : Nat) (b : Slot) (e : ECode) (r w : Word) (rest : List HostOp) (t : Status)

@[simp] theorem issue_busy : t.issue.busy = true := rfl
@[simp] theorem issue_ecode : t.issue.ecode = t.ecode := rfl
@[simp] theorem issue_ovr : t.issue.ovr = t.ovr := rfl
@[simp] theorem overrun_busy : t.overrun.busy = t.busy := rfl
@[simp] theorem overrun_ecode : t.overrun.ecode = t.ecode := rfl
@[simp] theorem overrun_ovr : t.overrun.ovr = true := rfl
@[simp] theorem done_busy : (t.done e).busy = false := rfl
@[simp] theorem done_ecode : (t.done e).ecode = e.code := rfl
@[simp] theorem done_ovr : (t.done e).ovr = t.ovr := rfl

@[simp] theorem statusWrite_busy : (t.hostWrite w).busy = t.busy := by unfold Status.hostWrite; split <;> rfl
@[simp] theorem statusWrite_ecode : (t.hostWrite w).ecode = t.ecode := by unfold Status.hostWrite; split <;> rfl

@[simp] theorem setSlot_capBytes : (setSlot s d b).capBytes = s.capBytes := rfl
@[simp] theorem setSlot_slots : (setSlot s d b).slots = s.slots.set d b := rfl
@[simp] theorem setSlot_operand : (setSlot s d b).operand = s.operand := rfl
@[simp] theorem setSlot_result : (setSlot s d b).result = s.result := rfl
@[simp] theorem setSlot_status : (setSlot s d b).status = s.status := rfl
@[simp] theorem setSlot_pendCmd : (setSlot s d b).pendCmd = s.pendCmd := rfl
@[simp] theorem setSlot_pendOp : (setSlot s d b).pendOp = s.pendOp := rfl
@[simp] theorem setSlot_program : (setSlot s d b).program = s.program := rfl
@[simp] theorem setSlot_hostVars : (setSlot s d b).hostVars = s.hostVars := rfl
@[simp] theorem setSlot_schedule : (setSlot s d b).schedule = s.schedule := rfl

@[simp] theorem raised_capBytes : (raised e s).capBytes = s.capBytes := rfl
@[simp] theorem raised_slots : (raised e s).slots = s.slots := rfl
@[simp] theorem raised_operand : (raised e s).operand = s.operand := rfl
@[simp] theorem raised_result : (raised e s).result = s.result := rfl
@[simp] theorem raised_status : (raised e s).status = s.status.done e := rfl
@[simp] theorem raised_pendCmd : (raised e s).pendCmd = s.pendCmd := rfl
@[simp] theorem raised_pendOp : (raised e s).pendOp = s.pendOp := rfl
@[simp] theorem raised_program : (raised e s).program = s.program := rfl
@[simp] theorem raised_hostVars : (raised e s).hostVars = s.hostVars := rfl
@[simp] theorem raised_schedule : (raised e s).schedule = s.schedule := rfl

@[simp] theorem completed_capBytes : (completed s).capBytes = s.capBytes := rfl
@[simp] theorem completed_slots : (completed s).slots = s.slots := rfl
@[simp] theorem completed_operand : (completed s).operand = s.operand := rfl
@[simp] theorem completed_result : (completed s).result = s.result := rfl
@[simp] theorem completed_status : (completed s).status = s.status.done .ok := rfl
@[simp] theorem completed_pendCmd : (completed s).pendCmd = s.pendCmd := rfl
@[simp] theorem completed_pendOp : (completed s).pendOp = s.pendOp := rfl
@[simp] theorem completed_program : (completed s).program = s.program := rfl
@[simp] theorem completed_hostVars : (completed s).hostVars = s.hostVars := rfl
@[simp] theorem completed_schedule : (completed s).schedule = s.schedule := rfl

@[simp] theorem completedWith_capBytes : (completedWith r s).capBytes = s.capBytes := rfl
@[simp] theorem completedWith_slots : (completedWith r s).slots = s.slots := rfl
@[simp] theorem completedWith_operand : (completedWith r s).operand = s.operand := rfl
@[simp] theorem completedWith_result : (completedWith r s).result = r := rfl
@[simp] theorem completedWith_status : (completedWith r s).status = s.status.done .ok := rfl
@[simp] theorem completedWith_pendCmd : (completedWith r s).pendCmd = s.pendCmd := rfl
@[simp] theorem completedWith_pendOp : (completedWith r s).pendOp = s.pendOp := rfl
@[simp] theorem completedWith_program : (completedWith r s).program = s.program := rfl
@[simp] theorem completedWith_hostVars : (completedWith r s).hostVars = s.hostVars := rfl
@[simp] theorem completedWith_schedule : (completedWith r s).schedule = s.schedule := rfl

@[simp] theorem hostNext_capBytes : (hostNext s rest).capBytes = s.capBytes := rfl
@[simp] theorem hostNext_slots : (hostNext s rest).slots = s.slots := rfl
@[simp] theorem hostNext_operand : (hostNext s rest).operand = s.operand := rfl
@[simp] theorem hostNext_result : (hostNext s rest).result = s.result := rfl
@[simp] theorem hostNext_status : (hostNext s rest).status = s.status := rfl
@[simp] theorem hostNext_pendCmd : (hostNext s rest).pendCmd = s.pendCmd := rfl
@[simp] theorem hostNext_pendOp : (hostNext s rest).pendOp = s.pendOp := rfl
@[simp] theorem hostNext_program : (hostNext s rest).program = rest := rfl
@[simp] theorem hostNext_hostVars : (hostNext s rest).hostVars = s.hostVars := rfl
@[simp] theorem hostNext_schedule : (hostNext s rest).schedule = s.schedule := rfl

@[simp] theorem setHostVar_capBytes : (setHostVar s h w).capBytes = s.capBytes := rfl
@[simp] theorem setHostVar_slots : (setHostVar s h w).slots = s.slots := rfl
@[simp] theorem setHostVar_operand : (setHostVar s h w).operand = s.operand := rfl
@[simp] theorem setHostVar_result : (setHostVar s h w).result = s.result := rfl
@[simp] theorem setHostVar_status : (setHostVar s h w).status = s.status := rfl
@[simp] theorem setHostVar_pendCmd : (setHostVar s h w).pendCmd = s.pendCmd := rfl
@[simp] theorem setHostVar_pendOp : (setHostVar s h w).pendOp = s.pendOp := rfl
@[simp] theorem setHostVar_program : (setHostVar s h w).program = s.program := rfl
@[simp] theorem setHostVar_hostVars : (setHostVar s h w).hostVars = cellWrite s.hostVars h w := rfl
@[simp] theorem setHostVar_schedule : (setHostVar s h w).schedule = s.schedule := rfl

variable (g : HostReg)

@[simp] theorem hostWrite_capBytes : (hostWrite g w s).capBytes = s.capBytes := by
  cases g <;> simp only [hostWrite, writeCmd]; split <;> rfl
@[simp] theorem hostWrite_slots : (hostWrite g w s).slots = s.slots := by
  cases g <;> simp only [hostWrite, writeCmd]; split <;> rfl
@[simp] theorem hostWrite_result : (hostWrite g w s).result = s.result := by
  cases g <;> simp only [hostWrite, writeCmd]; split <;> rfl
@[simp] theorem hostWrite_ecode : (hostWrite g w s).status.ecode = s.status.ecode := by
  cases g <;> simp only [hostWrite, writeCmd, statusWrite_ecode]; split <;> rfl
@[simp] theorem hostWrite_program : (hostWrite g w s).program = s.program := by
  cases g <;> simp only [hostWrite, writeCmd]; split <;> rfl
@[simp] theorem hostWrite_hostVars : (hostWrite g w s).hostVars = s.hostVars := by
  cases g <;> simp only [hostWrite, writeCmd]; split <;> rfl
@[simp] theorem hostWrite_schedule : (hostWrite g w s).schedule = s.schedule := by
  cases g <;> simp only [hostWrite, writeCmd]; split <;> rfl

end Sys2Proof.Machine
end

