-- ==== Sys2Proof/Laws/Command.lean ====
section
/-! SUPPORT. What a command can end with, said once: an error, a result, success, or one slot written; and the same of a host
operation. Proofs about all commands cite these and do not unfold the meanings. -/

namespace Sys2Proof.Machine

variable {i : Instr} {s t : State} {d : Nat} {b : Slot}

/-- The ways a command ends in state `t` when it runs in `s`; a slot it writes satisfies `P`. -/
inductive Effect (P : Slot → Prop) (i : Instr) (s : State) : State → Prop
  | error (e : ECode) (he : e ≠ .ok) : Effect P i s (raised e s)
  | result (r : Word) (hi : i.inspecting = true) : Effect P i s (completedWith r s)
  | plain (hi : i.inspecting = false) : Effect P i s (completed s)
  | write (b : Slot) (hi : i.inspecting = false) (hb : P b) : Effect P i s (completed (setSlot s i.slot b))

theorem slot?_eq_none : slot? s d = none ↔ s.nbuf ≤ d := by simp [slot?, State.nbuf]

/-- The slot check (60_exceptions.md R152). -/
theorem withSlot_bad (h : s.nbuf ≤ d) (rule : Slot → Host.Outcome State Fault Refusal) :
    withSlot d s rule = .next (raised .badSlot s) := by
  rw [withSlot, slot?_eq_none.2 h]; rfl

theorem withSlot_some (h : s.slots[d]? = some b) (rule : Slot → Host.Outcome State Fault Refusal) : withSlot d s rule = rule b := by
  rw [withSlot, slot?, h]

theorem withSlot_cases (d : Nat) (s : State) (rule : Slot → Host.Outcome State Fault Refusal) :
    (s.nbuf ≤ d ∧ withSlot d s rule = .next (raised .badSlot s)) ∨ ∃ b, s.slots[d]? = some b ∧ withSlot d s rule = rule b := by
  cases h : s.slots[d]? with
  | none => exact .inl ⟨slot?_eq_none.1 h, withSlot_bad (slot?_eq_none.1 h) rule⟩
  | some b => exact .inr ⟨b, rfl, withSlot_some h rule⟩

theorem State.Inv.capOk (h : s.Inv) : CapOk s.capBytes := h.1.2

theorem State.Inv.slot (h : s.Inv) (hd : s.slots[d]? = some b) : b.Inv s.capBytes :=
  h.2.1 b (List.mem_of_getElem? hd)

theorem exists_slot (h : d < s.nbuf) : ∃ b, s.slots[d]? = some b := ⟨_, List.getElem?_eq_getElem h⟩

theorem overflows_false {n : Nat} : overflows s b n = false ↔ b.bitCount.toNat + n ≤ 8 * s.capBytes := by
  rw [overflows, decide_eq_false_iff_not, State.capBits, not_lt]

theorem commit_ok {r : Except Fault Slot} (h : r = .ok b) : commit d r s = .next (completed (setSlot s d b)) := by
  rw [h]; rfl

/-- The result of a command whose slot check passes, from what its rule does. -/
theorem withSlot_effect {P : Slot → Prop} {rule : Slot → Host.Outcome State Fault Refusal}
    (h : ∀ b, s.slots[d]? = some b → ∃ t, rule b = .next t ∧ Effect P i s t) :
    ∃ t, withSlot d s rule = .next t ∧ Effect P i s t := by
  rcases withSlot_cases d s rule with ⟨-, e⟩ | ⟨b, hb, e⟩
  · exact ⟨_, e, .error _ (by decide)⟩
  · rw [e]; exact h b hb

theorem overflows_true {n : Nat} : overflows s b n = true ↔ 8 * s.capBytes < b.bitCount.toNat + n := by
  rw [← Bool.not_eq_false, overflows_false]; omega

/-! The meaning of each command once its slot check has passed: the error it raises, or what its slot operation gives. -/

theorem exec_init_ok {b' : Slot} (hb : s.slots[d]? = some b) (e : initSlot s.capBytes b = .ok b') :
    exec (.init d) s = .next (completed (setSlot s d b')) := (withSlot_some hb _).trans (commit_ok e)

theorem exec_appbit_full {v : Bool} (hb : s.slots[d]? = some b) (h : 8 * s.capBytes < b.bitCount.toNat + 1) :
    exec (.appbit d v) s = .next (raised .capacity s) := (withSlot_some hb _).trans (if_pos (overflows_true.2 h))

theorem exec_appbit_ok {v : Bool} {b' : Slot} (hb : s.slots[d]? = some b) (h : b.bitCount.toNat + 1 ≤ 8 * s.capBytes)
    (e : putBit s.capBytes b v = .ok b') : exec (.appbit d v) s = .next (completed (setSlot s d b')) :=
  (withSlot_some hb _).trans ((if_neg (by rw [overflows_false.2 h]; decide)).trans (commit_ok e))

theorem exec_apprun_full {v : Bool} (hb : s.slots[d]? = some b) (h : 8 * s.capBytes < b.bitCount.toNat + s.pendOp.toNat) :
    exec (.apprun d v) s = .next (raised .capacity s) := (withSlot_some hb _).trans (if_pos (overflows_true.2 h))

theorem exec_apprun_ok {v : Bool} {b' : Slot} (hb : s.slots[d]? = some b) (h : b.bitCount.toNat + s.pendOp.toNat ≤ 8 * s.capBytes)
    (e : putBits s.capBytes (List.replicate s.pendOp.toNat v) b = .ok b') :
    exec (.apprun d v) s = .next (completed (setSlot s d b')) :=
  (withSlot_some hb _).trans ((if_neg (by rw [opv, overflows_false.2 h]; decide)).trans (commit_ok e))

theorem exec_appint_wide {w : Nat} (hb : s.slots[d]? = some b) (h : 32 < w) :
    exec (.appint d w) s = .next (raised .widthInvalid s) := (withSlot_some hb _).trans (if_pos h)

theorem exec_appint_full {w : Nat} (hb : s.slots[d]? = some b) (hw : w ≤ 32) (h : 8 * s.capBytes < b.bitCount.toNat + w) :
    exec (.appint d w) s = .next (raised .capacity s) :=
  (withSlot_some hb _).trans ((if_neg (Nat.not_lt.2 hw)).trans (if_pos (overflows_true.2 h)))

theorem exec_appint_ok {w : Nat} {b' : Slot} (hb : s.slots[d]? = some b) (hw : w ≤ 32) (h : b.bitCount.toNat + w ≤ 8 * s.capBytes)
    (e : putBits s.capBytes (fieldBits s.pendOp w) b = .ok b') : exec (.appint d w) s = .next (completed (setSlot s d b')) :=
  (withSlot_some hb _).trans ((if_neg (Nat.not_lt.2 hw)).trans
    ((if_neg (by rw [overflows_false.2 h]; decide)).trans (commit_ok e)))

theorem exec_rdbit_out (hb : s.slots[d]? = some b) (h : b.bitCount.toNat ≤ s.pendOp.toNat) :
    exec (.rdbit d) s = .next (raised .outOfRange s) := (withSlot_some hb _).trans (if_pos h)

theorem exec_rdbit_ok {v : Bool} (hb : s.slots[d]? = some b) (h : s.pendOp.toNat < b.bitCount.toNat)
    (e : getBit s.capBytes b s.pendOp = .ok v) : exec (.rdbit d) s = .next (completedWith (BitVec.ofNat 32 v.toNat) s) :=
  (withSlot_some hb _).trans ((if_neg (Nat.not_le.2 h)).trans (by rw [opv, e]; rfl))

theorem exec_tobytes_ok (hb : s.slots[d]? = some b) :
    exec (.tobytes d) s = .next (completedWith (BitVec.ofNat 32 (ceil8 b.bitCount.toNat)) s) := withSlot_some hb _

theorem exec_rdbyte_out (hb : s.slots[d]? = some b) (h : ceil8 b.bitCount.toNat ≤ s.pendOp.toNat) :
    exec (.rdbyte d) s = .next (raised .outOfRange s) := (withSlot_some hb _).trans (if_pos h)

theorem exec_rdbyte_ok {v : Byte} (hb : s.slots[d]? = some b) (h : s.pendOp.toNat < ceil8 b.bitCount.toNat)
    (e : memRead s.capBytes b s.pendOp.toNat = .ok v) : exec (.rdbyte d) s = .next (completedWith (v.setWidth 32) s) :=
  (withSlot_some hb _).trans ((if_neg (Nat.not_le.2 h)).trans (by rw [opv, e]; rfl))

theorem exec_clone_self (hb : s.slots[d]? = some b) : exec (.clone d d) s = .next (completed s) :=
  (withSlot_some hb _).trans ((withSlot_some hb _).trans (if_pos rfl))

theorem exec_clone_ok {c : Nat} {src b' : Slot} (hb : s.slots[d]? = some b) (hs : s.slots[c]? = some src) (h : d ≠ c)
    (e : cloneSlot s.capBytes src b = .ok b') : exec (.clone d c) s = .next (completed (setSlot s d b')) :=
  (withSlot_some hb _).trans ((withSlot_some hs _).trans ((if_neg h).trans (commit_ok e)))

theorem exec_concat_full {c : Nat} {src : Slot} (hb : s.slots[d]? = some b) (hs : s.slots[c]? = some src)
    (h : 8 * s.capBytes < b.bitCount.toNat + src.bitCount.toNat) : exec (.concat d c) s = .next (raised .capacity s) :=
  (withSlot_some hb _).trans ((withSlot_some hs _).trans (if_pos (overflows_true.2 h)))

theorem exec_concat_ok {c : Nat} {src b' : Slot} (hb : s.slots[d]? = some b) (hs : s.slots[c]? = some src)
    (h : b.bitCount.toNat + src.bitCount.toNat ≤ 8 * s.capBytes)
    (e : concatBits s.capBytes (decide (d = c)) src (List.range src.bitCount.toNat) b = .ok b') :
    exec (.concat d c) s = .next (completed (setSlot s d b')) :=
  (withSlot_some hb _).trans ((withSlot_some hs _).trans ((if_neg (by rw [overflows_false.2 h]; decide)).trans (commit_ok e)))

theorem exec_len_ok (hb : s.slots[d]? = some b) : exec (.len d) s = .next (completedWith b.bitCount s) := withSlot_some hb _

/-- From a state that meets the invariants every command ends in a next state, in one of the four ways, and a slot it writes
meets the invariants. -/
theorem exec_effect (h : s.Inv) (i : Instr) : ∃ t, exec i s = .next t ∧ Effect (Slot.Inv s.capBytes) i s t := by
  have hc := h.capOk
  cases i with
  | init d =>
    refine withSlot_effect fun b hb => ⟨_, commit_ok (initSlot_ok (h.slot hb) hc), .write _ rfl (Slot.fresh_inv _)⟩
  | appbit d v =>
    refine withSlot_effect fun b hb => ?_
    cases ho : overflows s b 1 with
    | true => exact ⟨_, rfl, .error _ (by decide)⟩
    | false =>
      obtain ⟨b', e, a⟩ := putBit_ok (h.slot hb) hc (by have := overflows_false.1 ho; omega) v
      exact ⟨_, commit_ok e, .write _ rfl a.inv⟩
  | apprun d v =>
    refine withSlot_effect fun b hb => ?_
    cases ho : overflows s b (opv s).toNat with
    | true => exact ⟨_, rfl, .error _ (by decide)⟩
    | false =>
      obtain ⟨b', e, a⟩ := putBits_ok hc (List.replicate (opv s).toNat v) (h.slot hb)
        (by have := overflows_false.1 ho; simpa using this)
      exact ⟨_, commit_ok e, .write _ rfl a.inv⟩
  | appint d w =>
    refine withSlot_effect fun b hb => ?_
    by_cases hw : Config.intWidth < w
    · exact ⟨_, if_pos hw, .error _ (by decide)⟩
    · rw [if_neg hw]
      cases ho : overflows s b w with
      | true => exact ⟨_, rfl, .error _ (by decide)⟩
      | false =>
        obtain ⟨b', e, a⟩ := putBits_ok hc (fieldBits (opv s) w) (h.slot hb)
          (by have := overflows_false.1 ho; simpa [fieldBits] using this)
        exact ⟨_, commit_ok e, .write _ rfl a.inv⟩
  | rdbit d =>
    refine withSlot_effect fun b hb => ?_
    by_cases hp : b.bitCount.toNat ≤ (opv s).toNat
    · exact ⟨_, if_pos hp, .error _ (by decide)⟩
    · obtain ⟨v, -, hv⟩ := getBit_present (h.slot hb) hc (p := (opv s).toNat) (by have := (h.slot hb).count_le; omega)
      rw [BitVec.ofNat_toNat, BitVec.setWidth_eq] at hv
      rw [if_neg hp, hv]
      exact ⟨_, rfl, .result _ rfl⟩
  | tobytes d => exact withSlot_effect fun b hb => ⟨_, rfl, .result _ rfl⟩
  | rdbyte d =>
    refine withSlot_effect fun b hb => ?_
    by_cases hp : ceil8 b.bitCount.toNat ≤ (opv s).toNat
    · exact ⟨_, if_pos hp, .error _ (by decide)⟩
    · obtain ⟨v, -, hv⟩ := memRead_present (h.slot hb) hc (i := (opv s).toNat)
        (by have := (h.slot hb).len_eq; unfold ceil8 at hp; omega)
      rw [if_neg hp, hv]
      exact ⟨_, rfl, .result _ rfl⟩
  | clone d c =>
    refine withSlot_effect fun b hb => withSlot_effect fun src hs => ?_
    by_cases hd : d = c
    · exact ⟨_, if_pos hd, .plain rfl⟩
    · rw [if_neg hd]
      exact ⟨_, commit_ok (cloneSlot_ok (h.slot hb) (h.slot hs) hc), .write _ rfl (h.slot hs)⟩
  | concat d c =>
    refine withSlot_effect fun b hb => withSlot_effect fun src hs => ?_
    cases ho : overflows s b src.bitCount.toNat with
    | true => exact ⟨_, rfl, .error _ (by decide)⟩
    | false =>
      obtain ⟨b', e, a⟩ := concatBits_ok (h.slot hb) (h.slot hs) hc (decide (d = c))
        (fun hd => by have := of_decide_eq_true hd; subst this; rw [hb] at hs; exact (Option.some.inj hs).symm)
        (overflows_false.1 ho)
      exact ⟨_, commit_ok e, .write _ rfl a.inv⟩
  | len d => exact withSlot_effect fun b hb => ⟨_, rfl, .result _ rfl⟩

/-- From any state: if a command ends in a next state, it is one of the four. -/
theorem exec_next (h : exec i s = .next t) : Effect (fun _ => True) i s t := by
  have wr : ∀ {j : Instr} {r : Except Fault Slot}, j.inspecting = false → commit j.slot r s = .next t →
      Effect (fun _ => True) j s t := by
    intro j r hj e
    cases r with
    | error f => cases e
    | ok b => cases e; exact .write b hj trivial
  have ws : ∀ {j : Instr} {d : Nat} {rule : Slot → Host.Outcome State Fault Refusal},
      (∀ b, rule b = .next t → Effect (fun _ => True) j s t) → withSlot d s rule = .next t → Effect (fun _ => True) j s t := by
    intro j d rule hr e
    rcases withSlot_cases d s rule with ⟨-, e'⟩ | ⟨b, -, e'⟩
    · rw [e'] at e; cases e; exact .error _ (by decide)
    · rw [e'] at e; exact hr b e
  have er : ∀ {j : Instr} {e : ECode}, e ≠ .ok → raise e s = .next t → Effect (fun _ => True) j s t := by
    intro j e he h; cases h; exact .error e he
  cases i with
  | init d => exact ws (fun b e => wr (j := .init d) rfl e) h
  | appbit d v =>
    refine ws (fun b e => ?_) h
    split at e
    · exact er (by decide) e
    · exact wr (j := .appbit d v) rfl e
  | apprun d v =>
    refine ws (fun b e => ?_) h
    split at e
    · exact er (by decide) e
    · exact wr (j := .apprun d v) rfl e
  | appint d w =>
    refine ws (fun b e => ?_) h
    split at e
    · exact er (by decide) e
    · split at e
      · exact er (by decide) e
      · exact wr (j := .appint d w) rfl e
  | rdbit d =>
    refine ws (fun b e => ?_) h
    split at e
    · exact er (by decide) e
    · split at e
      · cases e
      · cases e; exact .result _ rfl
  | tobytes d => exact ws (fun b e => by cases e; exact .result _ rfl) h
  | rdbyte d =>
    refine ws (fun b e => ?_) h
    split at e
    · exact er (by decide) e
    · split at e
      · cases e
      · cases e; exact .result _ rfl
  | clone d c =>
    refine ws (fun b e => ws (fun src e => ?_) e) h
    split at e
    · cases e; exact .plain rfl
    · exact wr (j := .clone d c) rfl e
  | concat d c =>
    refine ws (fun b e => ws (fun src e => ?_) e) h
    split at e
    · exact er (by decide) e
    · exact wr (j := .concat d c) rfl e
  | len d => exact ws (fun b e => by cases e; exact .result _ rfl) h

/-- An outcome with its next state, if any, changed by `v`. -/
def mapNext (v : State → State) : Host.Outcome State Fault Refusal → Host.Outcome State Fault Refusal
  | .next t => .next (v t)
  | .fault f => .fault f
  | .refused r => .refused r

/-- A change `u` of the state that no command looks at: capacity, slots and PEND_OP stay, and the ends of a command carry it to
`v`. -/
structure Unseen (s : State) (u v : State → State) : Prop where
  cap : (u s).capBytes = s.capBytes
  slots : (u s).slots = s.slots
  op : (u s).pendOp = s.pendOp
  raised : ∀ e, raised e (u s) = v (raised e s)
  completed : completed (u s) = v (completed s)
  result : ∀ r, completedWith r (u s) = v (completedWith r s)
  write : ∀ d b, Sys2Proof.Machine.completed (setSlot (u s) d b) = v (Sys2Proof.Machine.completed (setSlot s d b))

/-- A command does with a change it does not look at what it does without, and the change stays. -/
theorem exec_unseen {u v : State → State} (h : Unseen s u v) (i : Instr) : exec i (u s) = mapNext v (exec i s) := by
  have ws : ∀ {d : Nat} {f g : Slot → Host.Outcome State Fault Refusal}, (∀ b, f b = mapNext v (g b)) →
      withSlot d (u s) f = mapNext v (withSlot d s g) := by
    intro d f g hf
    simp only [withSlot, slot?, h.slots]
    cases s.slots[d]? with
    | none => exact congrArg Host.Outcome.next (h.raised _)
    | some b => exact hf b
  have er : ∀ e, raise e (u s) = mapNext v (raise e s) := fun e => congrArg Host.Outcome.next (h.raised e)
  have wr : ∀ {d : Nat} {r : Except Fault Slot}, commit d r (u s) = mapNext v (commit d r s) := by
    intro d r
    cases r with
    | error f => rfl
    | ok b => exact congrArg Host.Outcome.next (h.write d b)
  have ov : ∀ b n, overflows (u s) b n = overflows s b n := by
    intro b n; unfold overflows State.capBits; rw [h.cap]
  have hop : opv (u s) = opv s := h.op
  have iteMap : ∀ {c : Prop} [Decidable c] {x x' y y' : Host.Outcome State Fault Refusal}, x = mapNext v x' → y = mapNext v y' →
      (if c then x else y) = mapNext v (if c then x' else y') := by
    intro c _ x x' y y' hx hy; by_cases hc : c <;> simp only [hc, if_true, if_false, hx, hy]
  cases i with
  | init d => exact ws fun b => by rw [h.cap]; exact wr
  | appbit d w => exact ws fun b => by rw [ov, h.cap]; exact iteMap (er _) wr
  | apprun d w => exact ws fun b => by rw [ov, h.cap, hop]; exact iteMap (er _) wr
  | appint d w => exact ws fun b => by rw [ov, h.cap, hop]; exact iteMap (er _) (iteMap (er _) wr)
  | rdbit d =>
    refine ws fun b => ?_
    rw [h.cap, hop]
    refine iteMap (er _) ?_
    cases getBit s.capBytes b (opv s) with
    | error f => rfl
    | ok w => exact congrArg Host.Outcome.next (h.result _)
  | tobytes d => exact ws fun b => congrArg Host.Outcome.next (h.result _)
  | rdbyte d =>
    refine ws fun b => ?_
    rw [h.cap, hop]
    refine iteMap (er _) ?_
    cases memRead s.capBytes b (opv s).toNat with
    | error f => rfl
    | ok w => exact congrArg Host.Outcome.next (h.result _)
  | clone d c => exact ws fun b => ws fun src => by rw [h.cap]; exact iteMap (congrArg Host.Outcome.next h.completed) wr
  | concat d c => exact ws fun b => ws fun src => by rw [ov, h.cap]; exact iteMap (er _) wr
  | len d => exact ws fun b => congrArg Host.Outcome.next (h.result _)

/-- The ways a host step ends in a next state (70_reset_and_hazards.md R176). -/
inductive HostEffect (s : State) : State → Prop
  | idle : HostEffect s s
  | write (r : HostReg) (w : Word) (rest : List HostOp) : HostEffect s (hostWrite r w (hostNext s rest))
  | read (h : Nat) (v : Word) (rest : List HostOp) : HostEffect s (setHostVar (hostNext s rest) h v)
  | waited (rest : List HostOp) : HostEffect s (hostNext s rest)

theorem hostStep_next (h : hostStep s = .next t) : HostEffect s t := by
  unfold hostStep at h
  split at h
  · cases h; exact .idle
  · split at h
    · cases h
    · cases h; exact .write _ _ _
  · split at h
    · cases h
    · cases h; exact .read _ _ _
  · cases h
    split
    · exact .idle
    · exact .waited _
  · cases h; exact .read _ _ _

/-- The invariant does not look at the turns or the host's program. -/
theorem inv_schedule (h : s.Inv) (ts : List Turn) : State.Inv { s with schedule := ts } := h

end Sys2Proof.Machine
end

