-- ==== Sys2Proof/Laws/Decode.lean ====
section
/-! SUPPORT. The command word in numbers: its fields as quotients and remainders (30_encoding.md R70, R71), the encoder's sum
(R78), and what a mask of R73 tests. -/

namespace Sys2Proof

theorem fieldOp_eq (w : Word) : fieldOp w = w.toNat % 16 := by
  have := Nat.and_two_pow_sub_one_eq_mod w.toNat 4
  simpa [fieldOp] using this

theorem fieldD_eq (w : Word) : fieldD w = w.toNat / 16 % 16 := by
  have := Nat.and_two_pow_sub_one_eq_mod (w.toNat / 16) 4
  simpa [fieldD, Nat.shiftRight_eq_div_pow] using this

theorem fieldS_eq (w : Word) : fieldS w = w.toNat / 256 % 16 := by
  have := Nat.and_two_pow_sub_one_eq_mod (w.toNat / 256) 4
  simpa [fieldS, Nat.shiftRight_eq_div_pow] using this

theorem fieldW_eq (w : Word) : fieldW w = w.toNat / 8192 % 64 := by
  have := Nat.and_two_pow_sub_one_eq_mod (w.toNat / 8192) 6
  simpa [fieldW, Nat.shiftRight_eq_div_pow] using this

theorem fieldB_eq (w : Word) : fieldB w = decide (w.toNat / 4096 % 2 = 1) := by
  simp [fieldB, BitVec.getLsbD, Nat.testBit_eq_decide_div_mod_eq]

theorem fieldRsv_eq (w : Word) : fieldRsv w = w.toNat / 524288 := by
  simp [fieldRsv, Nat.shiftRight_eq_div_pow]

/-- A field above the bits so far is added by `or`. -/
theorem toNat_or_shift {x : Word} {k f : Nat} (hx : x.toNat < 2 ^ k) (hf : f * 2 ^ k < 2 ^ 32) :
    (x ||| (BitVec.ofNat 32 f <<< k)).toNat = x.toNat + f * 2 ^ k := by
  have hp : 1 ≤ 2 ^ k := Nat.one_le_two_pow
  have hf' : f < 2 ^ 32 := lt_of_le_of_lt (Nat.le_mul_of_pos_right f hp) hf
  rw [BitVec.toNat_or, BitVec.toNat_shiftLeft, BitVec.toNat_ofNat, Nat.mod_eq_of_lt hf', Nat.shiftLeft_eq, Nat.mod_eq_of_lt hf,
    Nat.or_comm, ← Nat.shiftLeft_eq, ← Nat.shiftLeft_add_eq_or_of_lt hx, Nat.add_comm]

/-- The encoder's word as a number (R78). -/
theorem toNat_encodeFields {op d s w : Nat} (b : Bool) (ho : op < 16) (hd : d < 16) (hs : s < 16) (hw : w < 64) :
    (encodeFields op d s b w).toNat = op + 16 * d + 256 * s + 4096 * b.toNat + 8192 * w := by
  have hb : b.toNat < 2 := by cases b <;> decide
  have h0 : (BitVec.ofNat 32 op).toNat = op := by simp only [BitVec.toNat_ofNat]; omega
  have h1 := toNat_or_shift (x := BitVec.ofNat 32 op) (k := 4) (f := d) (by omega) (by omega)
  have h2 := toNat_or_shift (x := BitVec.ofNat 32 op ||| (BitVec.ofNat 32 d <<< 4)) (k := 8) (f := s) (by omega) (by omega)
  have h3 := toNat_or_shift (x := BitVec.ofNat 32 op ||| (BitVec.ofNat 32 d <<< 4) ||| (BitVec.ofNat 32 s <<< 8)) (k := 12)
    (f := b.toNat) (by omega) (by omega)
  have h4 := toNat_or_shift (x := BitVec.ofNat 32 op ||| (BitVec.ofNat 32 d <<< 4) ||| (BitVec.ofNat 32 s <<< 8)
    ||| (BitVec.ofNat 32 b.toNat <<< 12)) (k := 13) (f := w) (by omega) (by omega)
  rw [encodeFields, h4]; omega

/-- `and` works field by field. -/
theorem and_split {k a h m n : Nat} (ha : a < 2 ^ k) (hm : m < 2 ^ k) :
    (a + 2 ^ k * h) &&& (m + 2 ^ k * n) = (a &&& m) + 2 ^ k * (h &&& n) := by
  have e1 : a + 2 ^ k * h = h <<< k ||| a := by rw [← Nat.shiftLeft_add_eq_or_of_lt ha, Nat.shiftLeft_eq]; ring
  have e2 : m + 2 ^ k * n = n <<< k ||| m := by rw [← Nat.shiftLeft_add_eq_or_of_lt hm, Nat.shiftLeft_eq]; ring
  have ham : a &&& m < 2 ^ k := Nat.and_lt_two_pow a hm
  have e3 : (a &&& m) + 2 ^ k * (h &&& n) = (h &&& n) <<< k ||| (a &&& m) := by
    rw [← Nat.shiftLeft_add_eq_or_of_lt ham, Nat.shiftLeft_eq]; ring
  rw [e1, e2, e3]
  apply Nat.eq_of_testBit_eq
  intro i
  have lo : ∀ {x}, x < 2 ^ k → k ≤ i → x.testBit i = false := fun hx hi =>
    Nat.testBit_lt_two_pow (lt_of_lt_of_le hx (Nat.pow_le_pow_right (by decide) hi))
  simp only [Nat.testBit_and, Nat.testBit_or, Nat.testBit_shiftLeft]
  by_cases hi : k ≤ i
  · simp [hi, lo ha hi, lo hm hi]
  · simp [hi]

/-- A word cut into its six fields, and the mask with it. -/
theorem toNat_and_mask (w : Word) {mo md ms mb mw mr : Nat} (ho : mo < 16) (hd : md < 16) (hs : ms < 16) (hb : mb < 2)
    (hw : mw < 64) (hr : mr < 8192) :
    (w &&& BitVec.ofNat 32 (mo + 16 * (md + 16 * (ms + 16 * (mb + 2 * (mw + 64 * mr)))))).toNat =
      (w.toNat % 16 &&& mo) + 16 * ((w.toNat / 16 % 16 &&& md) + 16 * ((w.toNat / 256 % 16 &&& ms) +
        16 * ((w.toNat / 4096 % 2 &&& mb) + 2 * ((w.toNat / 8192 % 64 &&& mw) + 64 * (w.toNat / 524288 &&& mr))))) := by
  have hcut : w.toNat = w.toNat % 16 + 16 * (w.toNat / 16 % 16 + 16 * (w.toNat / 256 % 16 + 16 * (w.toNat / 4096 % 2 +
      2 * (w.toNat / 8192 % 64 + 64 * (w.toNat / 524288))))) := by omega
  have hm : (BitVec.ofNat 32 (mo + 16 * (md + 16 * (ms + 16 * (mb + 2 * (mw + 64 * mr)))))).toNat =
      mo + 16 * (md + 16 * (ms + 16 * (mb + 2 * (mw + 64 * mr)))) := by simp only [BitVec.toNat_ofNat]; omega
  rw [BitVec.toNat_and, hm]
  conv_lhs => rw [hcut]
  rw [show (16 : Nat) = 2 ^ 4 from rfl, show (64 : Nat) = 2 ^ 6 from rfl]
  rw [and_split (Nat.mod_lt _ (by decide)) ho, and_split (Nat.mod_lt _ (by decide)) hd, and_split (Nat.mod_lt _ (by decide)) hs]
  have := and_split (k := 1) (a := w.toNat / 4096 % 2) (h := w.toNat / 8192 % 2 ^ 6 + 2 ^ 6 * (w.toNat / 524288)) (m := mb)
    (n := mw + 2 ^ 6 * mr) (by omega) (by omega)
  rw [Nat.pow_one] at this
  rw [this, and_split (Nat.mod_lt _ (by decide)) hw]

theorem and_full {x k : Nat} (hx : x < 2 ^ k) : x &&& (2 ^ k - 1) = x := by
  rw [Nat.and_two_pow_sub_one_eq_mod, Nat.mod_eq_of_lt hx]

theorem and4 (x : Nat) (hx : x < 16) : x &&& 15 = x := and_full (k := 4) hx
theorem and1 (x : Nat) (hx : x < 2) : x &&& 1 = x := and_full (k := 1) hx
theorem and6 (x : Nat) (hx : x < 64) : x &&& 63 = x := and_full (k := 6) hx
theorem and13 (x : Nat) (hx : x < 8192) : x &&& 8191 = x := and_full (k := 13) hx

/-- INIT, RDBIT, TOBYTES, RDBYTE and LEN test OP, and 0 in S, B, W and RSV. -/
theorem selects_D (w : Word) {op : Nat} (ho : op < 16) :
    w &&& 0xFFFFFF0F = BitVec.ofNat 32 op ↔ w.toNat % 16 = op ∧ w.toNat / 256 = 0 := by
  have h := toNat_and_mask w (mo := 15) (md := 0) (ms := 15) (mb := 1) (mw := 63) (mr := 8191) (by decide) (by decide) (by decide)
    (by decide) (by decide) (by decide)
  have hw := w.isLt
  rw [and4 _ (by omega), and4 _ (by omega), and1 _ (by omega), and6 _ (by omega), and13 _ (by omega), Nat.and_zero] at h
  rw [← BitVec.toNat_inj, show (0xFFFFFF0F : Word) = BitVec.ofNat 32 (15 + 16 * (0 + 16 * (15 + 16 * (1 + 2 * (63 + 64 * 8191))))) from rfl,
    h, BitVec.toNat_ofNat]
  omega

/-- APPBIT and APPRUN test OP, and 0 in S, W and RSV. -/
theorem selects_DB (w : Word) {op : Nat} (ho : op < 16) :
    w &&& 0xFFFFEF0F = BitVec.ofNat 32 op ↔ w.toNat % 16 = op ∧ w.toNat / 256 % 16 = 0 ∧ w.toNat / 8192 = 0 := by
  have h := toNat_and_mask w (mo := 15) (md := 0) (ms := 15) (mb := 0) (mw := 63) (mr := 8191) (by decide) (by decide) (by decide)
    (by decide) (by decide) (by decide)
  have hw := w.isLt
  rw [and4 _ (by omega), and4 _ (by omega), and6 _ (by omega), and13 _ (by omega), Nat.and_zero, Nat.and_zero] at h
  rw [← BitVec.toNat_inj, show (0xFFFFEF0F : Word) = BitVec.ofNat 32 (15 + 16 * (0 + 16 * (15 + 16 * (0 + 2 * (63 + 64 * 8191))))) from rfl,
    h, BitVec.toNat_ofNat]
  omega

/-- APPINT tests OP, and 0 in S, B and RSV. -/
theorem selects_DW (w : Word) {op : Nat} (ho : op < 16) :
    w &&& 0xFFF81F0F = BitVec.ofNat 32 op ↔ w.toNat % 16 = op ∧ w.toNat / 256 % 32 = 0 ∧ w.toNat / 524288 = 0 := by
  have h := toNat_and_mask w (mo := 15) (md := 0) (ms := 15) (mb := 1) (mw := 0) (mr := 8191) (by decide) (by decide) (by decide)
    (by decide) (by decide) (by decide)
  have hw := w.isLt
  rw [and4 _ (by omega), and4 _ (by omega), and1 _ (by omega), and13 _ (by omega), Nat.and_zero, Nat.and_zero] at h
  rw [← BitVec.toNat_inj, show (0xFFF81F0F : Word) = BitVec.ofNat 32 (15 + 16 * (0 + 16 * (15 + 16 * (1 + 2 * (0 + 64 * 8191))))) from rfl,
    h, BitVec.toNat_ofNat]
  omega

/-- CLONE and CONCAT test OP, and 0 in B, W and RSV. -/
theorem selects_DS (w : Word) {op : Nat} (ho : op < 16) :
    w &&& 0xFFFFF00F = BitVec.ofNat 32 op ↔ w.toNat % 16 = op ∧ w.toNat / 4096 = 0 := by
  have h := toNat_and_mask w (mo := 15) (md := 0) (ms := 0) (mb := 1) (mw := 63) (mr := 8191) (by decide) (by decide) (by decide)
    (by decide) (by decide) (by decide)
  have hw := w.isLt
  rw [and4 _ (by omega), and1 _ (by omega), and6 _ (by omega), and13 _ (by omega), Nat.and_zero, Nat.and_zero] at h
  rw [← BitVec.toNat_inj, show (0xFFFFF00F : Word) = BitVec.ofNat 32 (15 + 16 * (0 + 16 * (0 + 16 * (1 + 2 * (63 + 64 * 8191))))) from rfl,
    h, BitVec.toNat_ofNat]
  omega

theorem decodeIn_cons (w : Word) (r : Row) (rs : List Row) {n : Prop} [Decidable n] (h : r.selects w ↔ n) :
    decodeIn w (r :: rs) = if n then .command (r.read w) else decodeIn w rs := by
  by_cases hn : n
  · rw [decodeIn, if_pos hn, if_pos (h.2 hn)]
  · rw [decodeIn, if_neg hn, if_neg fun hs => hn (h.1 hs)]

/-- The decoder in numbers: each row tests OP and that the unused fields are 0 (R73-R75). -/
theorem decodeCmd_eq (w : Word) : decodeCmd w =
    if w.toNat % 16 = 1 ∧ w.toNat / 256 = 0 then .command (.init (fieldD w))
    else if w.toNat % 16 = 2 ∧ w.toNat / 256 % 16 = 0 ∧ w.toNat / 8192 = 0 then .command (.appbit (fieldD w) (fieldB w))
    else if w.toNat % 16 = 3 ∧ w.toNat / 256 % 16 = 0 ∧ w.toNat / 8192 = 0 then .command (.apprun (fieldD w) (fieldB w))
    else if w.toNat % 16 = 4 ∧ w.toNat / 256 % 32 = 0 ∧ w.toNat / 524288 = 0 then .command (.appint (fieldD w) (fieldW w))
    else if w.toNat % 16 = 5 ∧ w.toNat / 256 = 0 then .command (.rdbit (fieldD w))
    else if w.toNat % 16 = 6 ∧ w.toNat / 256 = 0 then .command (.tobytes (fieldD w))
    else if w.toNat % 16 = 7 ∧ w.toNat / 256 = 0 then .command (.rdbyte (fieldD w))
    else if w.toNat % 16 = 8 ∧ w.toNat / 4096 = 0 then .command (.clone (fieldD w) (fieldS w))
    else if w.toNat % 16 = 9 ∧ w.toNat / 4096 = 0 then .command (.concat (fieldD w) (fieldS w))
    else if w.toNat % 16 = 10 ∧ w.toNat / 256 = 0 then .command (.len (fieldD w))
    else .illegal (illegalKind w) := by
  unfold decodeCmd rows
  rw [decodeIn_cons w _ _ (selects_D w (op := 1) (by decide)), decodeIn_cons w _ _ (selects_DB w (op := 2) (by decide)),
    decodeIn_cons w _ _ (selects_DB w (op := 3) (by decide)), decodeIn_cons w _ _ (selects_DW w (op := 4) (by decide)),
    decodeIn_cons w _ _ (selects_D w (op := 5) (by decide)), decodeIn_cons w _ _ (selects_D w (op := 6) (by decide)),
    decodeIn_cons w _ _ (selects_D w (op := 7) (by decide)), decodeIn_cons w _ _ (selects_DS w (op := 8) (by decide)),
    decodeIn_cons w _ _ (selects_DS w (op := 9) (by decide)), decodeIn_cons w _ _ (selects_D w (op := 10) (by decide))]
  rfl

end Sys2Proof
end

