-- ==== Sys2Proof/Laws/Memory.lean ====
section
/-! SUPPORT. Every operation on slot storage keeps the canonical form of the cell list, on any slot. -/

namespace Sys2Proof.Machine

variable {cap : Nat} {b b' : Slot}

theorem memWrite_wf {i : Nat} {v : Byte} (h : Memory.wf b.storage) (e : memWrite cap b i v = .ok b') : Memory.wf b'.storage := by
  unfold memWrite at e
  split at e <;> cases e
  exact cellsWf_cellWrite h i v

theorem setByteLen_wf (h : Memory.wf b.storage) (n : Word) : Memory.wf (setByteLen b n).storage := cellsWf_cellsBelow h _

theorem grow_wf {p : Word} (h : Memory.wf b.storage) (e : grow cap b p = .ok b') : Memory.wf b'.storage := by
  unfold grow at e
  split at e
  · cases hw : memWrite cap b b.byteLen.toNat 0 with
    | error f => rw [hw] at e; cases e
    | ok g => rw [hw] at e; cases e; exact memWrite_wf (b' := g) h hw
  · cases e; exact h

theorem putBit_wf {v : Bool} (h : Memory.wf b.storage) (e : putBit cap b v = .ok b') : Memory.wf b'.storage := by
  unfold putBit at e
  cases hg : grow cap b b.bitCount with
  | error f => rw [hg] at e; cases e
  | ok g =>
    simp only [hg] at e
    cases hr : memRead cap g (byteIndex b.bitCount) with
    | error f => rw [hr] at e; cases e
    | ok old =>
      simp only [hr] at e
      cases hw : memWrite cap g (byteIndex b.bitCount) (setMasked old (bitMask b.bitCount) v) with
      | error f => rw [hw] at e; cases e
      | ok w => rw [hw] at e; cases e; exact memWrite_wf (b' := w) (grow_wf h hg) hw

theorem putBits_wf : ∀ (vs : List Bool) {b : Slot}, Memory.wf b.storage → putBits cap vs b = .ok b' → Memory.wf b'.storage
  | [], _, h, e => by cases e; exact h
  | v :: vs, b, h, e => by
    rw [putBits] at e
    cases hp : putBit cap b v with
    | error f => rw [hp] at e; cases e
    | ok c => rw [hp] at e; exact putBits_wf vs (putBit_wf h hp) e

theorem concatBits_wf {self : Bool} {src : Slot} : ∀ (ps : List Nat) {b : Slot}, Memory.wf b.storage →
    concatBits cap self src ps b = .ok b' → Memory.wf b'.storage
  | [], _, h, e => by cases e; exact h
  | p :: ps, b, h, e => by
    rw [concatBits] at e
    cases hg : getBit cap (if self then b else src) (BitVec.ofNat 32 p) with
    | error f => rw [hg] at e; cases e
    | ok v =>
      simp only [hg] at e
      cases hp : putBit cap b v with
      | error f => rw [hp] at e; cases e
      | ok c => rw [hp] at e; exact concatBits_wf ps (putBit_wf h hp) e

theorem copyBytes_wf {src : Slot} : ∀ (is : List Nat) {b : Slot}, Memory.wf b.storage →
    copyBytes cap src is b = .ok b' → Memory.wf b'.storage
  | [], _, h, e => by cases e; exact h
  | i :: is, b, h, e => by
    rw [copyBytes] at e
    cases hr : memRead cap src i with
    | error f => rw [hr] at e; cases e
    | ok v =>
      simp only [hr] at e
      cases hw : memWrite cap b i v with
      | error f => rw [hw] at e; cases e
      | ok c => rw [hw] at e; exact copyBytes_wf is (memWrite_wf h hw) e

/-- Reset memory is in canonical form. -/
theorem fresh_wf : Memory.wf Slot.fresh.storage := by decide

end Sys2Proof.Machine
end

