-- ==== Sys2Proof/Laws/PerInstr.lean ====
section
/-! SUPPORT. Statements made for all commands, one lemma per constructor. -/

namespace Sys2Proof

/-- The match value and the mask of a command's row of R73. -/
def matchMask : Instr → Word × Word
  | .init _ => (0x1, 0xFFFFFF0F)
  | .appbit _ _ => (0x2, 0xFFFFEF0F)
  | .apprun _ _ => (0x3, 0xFFFFEF0F)
  | .appint _ _ => (0x4, 0xFFF81F0F)
  | .rdbit _ => (0x5, 0xFFFFFF0F)
  | .tobytes _ => (0x6, 0xFFFFFF0F)
  | .rdbyte _ => (0x7, 0xFFFFFF0F)
  | .clone _ _ => (0x8, 0xFFFFF00F)
  | .concat _ _ => (0x9, 0xFFFFF00F)
  | .len _ => (0xA, 0xFFFFFF0F)

/-- RowMatch: the encoding of a well-formed command matches its own row of R73. -/
def Laws.RowMatch.Statement (i : Instr) : Prop := WellFormed i → encode i &&& (matchMask i).2 = (matchMask i).1

theorem Laws.RowMatch.init (d : Nat) : Laws.RowMatch.Statement (.init d) := by
  intro h; simp only [WellFormed, Instr.wellFormed, decide_eq_true_eq] at h
  have e := toNat_encodeFields (op := 0x1) (d := d) (s := 0) (w := 0) false (by decide) h (by decide) (by decide)
  rw [Bool.toNat_false] at e
  exact (selects_D _ (op := 0x1) (by decide)).2 (by rw [encode, e]; omega)

theorem Laws.RowMatch.appbit (d : Nat) (b : Bool) : Laws.RowMatch.Statement (.appbit d b) := by
  intro h; simp only [WellFormed, Instr.wellFormed, decide_eq_true_eq] at h
  have e := toNat_encodeFields (op := 0x2) (d := d) (s := 0) (w := 0) b (by decide) h (by decide) (by decide)
  have hb := Bool.toNat_le b
  exact (selects_DB _ (op := 0x2) (by decide)).2 (by rw [encode, e]; omega)

theorem Laws.RowMatch.apprun (d : Nat) (b : Bool) : Laws.RowMatch.Statement (.apprun d b) := by
  intro h; simp only [WellFormed, Instr.wellFormed, decide_eq_true_eq] at h
  have e := toNat_encodeFields (op := 0x3) (d := d) (s := 0) (w := 0) b (by decide) h (by decide) (by decide)
  have hb := Bool.toNat_le b
  exact (selects_DB _ (op := 0x3) (by decide)).2 (by rw [encode, e]; omega)

theorem Laws.RowMatch.appint (d w : Nat) : Laws.RowMatch.Statement (.appint d w) := by
  intro h; simp only [WellFormed, Instr.wellFormed, Bool.and_eq_true, decide_eq_true_eq] at h
  have e := toNat_encodeFields (op := 0x4) (d := d) (s := 0) (w := w) false (by decide) h.1 (by decide) h.2
  have hw : w < 64 := h.2
  rw [Bool.toNat_false] at e
  exact (selects_DW _ (op := 0x4) (by decide)).2 (by rw [encode, e]; omega)

theorem Laws.RowMatch.rdbit (d : Nat) : Laws.RowMatch.Statement (.rdbit d) := by
  intro h; simp only [WellFormed, Instr.wellFormed, decide_eq_true_eq] at h
  have e := toNat_encodeFields (op := 0x5) (d := d) (s := 0) (w := 0) false (by decide) h (by decide) (by decide)
  rw [Bool.toNat_false] at e
  exact (selects_D _ (op := 0x5) (by decide)).2 (by rw [encode, e]; omega)

theorem Laws.RowMatch.tobytes (d : Nat) : Laws.RowMatch.Statement (.tobytes d) := by
  intro h; simp only [WellFormed, Instr.wellFormed, decide_eq_true_eq] at h
  have e := toNat_encodeFields (op := 0x6) (d := d) (s := 0) (w := 0) false (by decide) h (by decide) (by decide)
  rw [Bool.toNat_false] at e
  exact (selects_D _ (op := 0x6) (by decide)).2 (by rw [encode, e]; omega)

theorem Laws.RowMatch.rdbyte (d : Nat) : Laws.RowMatch.Statement (.rdbyte d) := by
  intro h; simp only [WellFormed, Instr.wellFormed, decide_eq_true_eq] at h
  have e := toNat_encodeFields (op := 0x7) (d := d) (s := 0) (w := 0) false (by decide) h (by decide) (by decide)
  rw [Bool.toNat_false] at e
  exact (selects_D _ (op := 0x7) (by decide)).2 (by rw [encode, e]; omega)

theorem Laws.RowMatch.clone (d s : Nat) : Laws.RowMatch.Statement (.clone d s) := by
  intro h; simp only [WellFormed, Instr.wellFormed, Bool.and_eq_true, decide_eq_true_eq] at h
  have e := toNat_encodeFields (op := 0x8) (d := d) (s := s) (w := 0) false (by decide) h.1 h.2 (by decide)
  have hs : s < 16 := h.2
  rw [Bool.toNat_false] at e
  exact (selects_DS _ (op := 0x8) (by decide)).2 (by rw [encode, e]; omega)

theorem Laws.RowMatch.concat (d s : Nat) : Laws.RowMatch.Statement (.concat d s) := by
  intro h; simp only [WellFormed, Instr.wellFormed, Bool.and_eq_true, decide_eq_true_eq] at h
  have e := toNat_encodeFields (op := 0x9) (d := d) (s := s) (w := 0) false (by decide) h.1 h.2 (by decide)
  have hs : s < 16 := h.2
  rw [Bool.toNat_false] at e
  exact (selects_DS _ (op := 0x9) (by decide)).2 (by rw [encode, e]; omega)

theorem Laws.RowMatch.len (d : Nat) : Laws.RowMatch.Statement (.len d) := by
  intro h; simp only [WellFormed, Instr.wellFormed, decide_eq_true_eq] at h
  have e := toNat_encodeFields (op := 0xA) (d := d) (s := 0) (w := 0) false (by decide) h (by decide) (by decide)
  rw [Bool.toNat_false] at e
  exact (selects_D _ (op := 0xA) (by decide)).2 (by rw [encode, e]; omega)

end Sys2Proof
end

