-- ==== Sys2Proof/Laws/Run.lean ====
section
/-! SUPPORT. A step taken from whose turn it is, and runs of several steps peeled apart one step at a time. -/

namespace Sys2Proof.Machine

variable {s t : State} {ts : List Turn}

theorem step_host (h : s.schedule = .host :: ts) : step s = hostStep { s with schedule := ts } := by
  rw [show step s = stepTurn s from rfl, stepTurn, h]; rfl

theorem step_engine (h : s.schedule = .engine :: ts) : step s = engineTurn { s with schedule := ts } := by
  rw [show step s = stepTurn s from rfl, stepTurn, h]; rfl

theorem step_rst (h : s.schedule = .rst :: ts) : step s = .next (applyReset { s with schedule := ts }) := by
  rw [show step s = stepTurn s from rfl, stepTurn, h]; rfl

/-- With no turn laid down: the engine's step while BUSY = 1. -/
theorem step_free_busy (h : s.schedule = []) (hb : s.status.busy = true) : step s = engineStep s := by
  rw [show step s = stepTurn s from rfl, stepTurn, h]
  simp only [defaultTurn, hb, if_true, takeTurn, engineTurn]

/-- With no turn laid down: the host's step while BUSY = 0. -/
theorem step_free_idle (h : s.schedule = []) (hb : s.status.busy = false) : step s = hostStep s := by
  rw [show step s = stepTurn s from rfl, stepTurn, h]
  simp only [defaultTurn, hb, Bool.false_eq_true, if_false, takeTurn]

/-- A host write of a register of the window. -/
theorem hostStep_wr {a : BusAccess} {w : Word} {r : HostReg} {rest : List HostOp} (h : s.program = .wr a w :: rest)
    (hr : hostReg? a = some r) : hostStep s = .next (hostWrite r w { s with program := rest }) := by
  rw [hostStep]; simp only [h, hr, hostNext]

theorem core_run_next (M : Host.Core) {s t : M.State} (n : Nat) (h : M.step s = .next t) : M.run (n + 1) s = M.run n t := by
  simp only [Host.Core.run, h]

theorem core_run_fault (M : Host.Core) {s : M.State} (n : Nat) {f : M.Fault} (h : M.step s = .fault f) :
    M.run (n + 1) s = .fault f := by
  simp only [Host.Core.run, h]

theorem core_run_refused (M : Host.Core) {s : M.State} (n : Nat) {r : M.Refusal} (h : M.step s = .refused r) :
    M.run (n + 1) s = .refused r := by
  simp only [Host.Core.run, h]

theorem run_next (n : Nat) (h : step s = .next t) : Host.Core.run Sys2Proof.core (n + 1) s = Host.Core.run Sys2Proof.core n t :=
  core_run_next Sys2Proof.core n h

theorem run_fault (n : Nat) {f : Fault} (h : step s = .fault f) : Host.Core.run Sys2Proof.core (n + 1) s = .fault f :=
  core_run_fault Sys2Proof.core n h

theorem run_refused (n : Nat) {r : Refusal} (h : step s = .refused r) :
    Host.Core.run Sys2Proof.core (n + 1) s = .refused r := core_run_refused Sys2Proof.core n h

end Sys2Proof.Machine
end

