-- ==== Sys2Proof/Tests/Slice0.lean ====
section
/-! SUPPORT. The model's own tests. Expected results are transcribed from the spec (30_encoding.md R80, 95_test_vectors.md
section 2), not computed by the model. The theorems `witness_<Name>` show a concrete case that meets every hypothesis of
`Obligations.<Name>`, at the ends of the ranges its clauses split. -/

namespace Sys2Proof.Tests

open Sys2Proof Sys2Proof.Machine

/-! ### Helpers -/

/-- The next state of an outcome. -/
def nextOf : Host.Outcome State Fault Refusal → Option State
  | .next t => some t
  | .fault _ => none
  | .refused _ => none

theorem exists_next {o : Host.Outcome State Fault Refusal} (p : State → Bool) (h : (nextOf o).any p = true) :
    ∃ t, o = .next t ∧ p t = true := by
  cases o with
  | next t => exact ⟨t, rfl, h⟩
  | fault f => cases h
  | refused r => cases h

/-- A slot with the given bytes present and bit count. -/
def slotOf (bytes : List Byte) (n : Nat) : Slot :=
  { storage := (List.range bytes.length).zip bytes, bitCount := BitVec.ofNat 32 n, byteLen := BitVec.ofNat 32 bytes.length }

/-- Slot contents as `bitsAsString` "1011", "01", "", and 64 ones. -/
def someSlots : List Slot :=
  [slotOf [0xB0] 4, slotOf [0x40] 2, Slot.fresh, slotOf [0xFF, 0xFF, 0xFF, 0xFF, 0xFF, 0xFF, 0xFF, 0xFF] 64]

/-- The reset state of TC with these slots. -/
def withSlots (slots : List Slot) : State := { State.reset with slots := slots }

/-- A command pending on these slots, the engine's turn next. -/
def pending (slots : List Slot) (cmd op : Word) : State :=
  { withSlots slots with
    pendCmd := cmd, pendOp := op, status := { busy := true, ecode := 0, ovr := false }, schedule := [.engine] }

/-- The host's turn next, with one operation to do. -/
def hosting (busy ovr : Bool) (o : HostOp) : State :=
  { withSlots someSlots with
    operand := 9, status := { busy := busy, ecode := 0, ovr := ovr }, program := [o], schedule := [.host] }

/-- Slot `d`, RESULT and STATUS after the pending command completes. -/
def after (slots : List Slot) (cmd op : Word) (d : Nat) : Option (Option Slot × Word × Word) :=
  (nextOf (step (pending slots cmd op))).map fun t => (t.slots[d]?, t.result, t.status.toWord)

/-- OPERAND, PEND_CMD, PEND_OP, STATUS and the first host variable after one host step. -/
def afterHost (s : State) : Option (Word × Word × Word × Word × Option Word) :=
  (nextOf (step s)).map fun t => (t.operand, t.pendCmd, t.pendOp, t.status.toWord, cellRead t.hostVars 0)

/-! ### WellFormed smoke: an ill-formed term for each check (30_encoding.md R78) -/

theorem test_illformed_init : ¬ WellFormed (.init 16) := by decide
theorem test_illformed_appbit : ¬ WellFormed (.appbit 16 true) := by decide
theorem test_illformed_apprun : ¬ WellFormed (.apprun 16 false) := by decide
theorem test_illformed_appint_slot : ¬ WellFormed (.appint 16 4) := by decide
theorem test_illformed_appint_width : ¬ WellFormed (.appint 0 64) := by decide
theorem test_illformed_rdbit : ¬ WellFormed (.rdbit 16) := by decide
theorem test_illformed_tobytes : ¬ WellFormed (.tobytes 16) := by decide
theorem test_illformed_rdbyte : ¬ WellFormed (.rdbyte 16) := by decide
theorem test_illformed_clone_slot : ¬ WellFormed (.clone 16 0) := by decide
theorem test_illformed_clone_source : ¬ WellFormed (.clone 0 16) := by decide
theorem test_illformed_concat_slot : ¬ WellFormed (.concat 16 0) := by decide
theorem test_illformed_concat_source : ¬ WellFormed (.concat 0 16) := by decide
theorem test_illformed_len : ¬ WellFormed (.len 16) := by decide
theorem test_assemble_rejects : assemble (.appint 0 64) = none ∧ assemble (.appint 0 63) = some 0x0007E004 := by decide

/-! ### Decoding: each constructor's word, written out from the pattern column of R73 -/

theorem test_decode_init : decodeCmd 0b0000000000000_000000_0_0000_0001_0001 = .command (.init 1) := by decide
theorem test_decode_appbit : decodeCmd 0b0000000000000_000000_1_0000_0001_0010 = .command (.appbit 1 true) := by decide
theorem test_decode_apprun : decodeCmd 0b0000000000000_000000_1_0000_0000_0011 = .command (.apprun 0 true) := by decide
theorem test_decode_appint : decodeCmd 0b0000000000000_000100_0_0000_0000_0100 = .command (.appint 0 4) := by decide
theorem test_decode_rdbit : decodeCmd 0b0000000000000_000000_0_0000_0010_0101 = .command (.rdbit 2) := by decide
theorem test_decode_tobytes : decodeCmd 0b0000000000000_000000_0_0000_0000_0110 = .command (.tobytes 0) := by decide
theorem test_decode_rdbyte : decodeCmd 0b0000000000000_000000_0_0000_0000_0111 = .command (.rdbyte 0) := by decide
theorem test_decode_clone : decodeCmd 0b0000000000000_000000_0_0100_0010_1000 = .command (.clone 2 4) := by decide
theorem test_decode_concat : decodeCmd 0b0000000000000_000000_0_0001_0000_1001 = .command (.concat 0 1) := by decide
theorem test_decode_len : decodeCmd 0b0000000000000_000000_0_0000_0010_1010 = .command (.len 2) := by decide

/-- The table of R80. -/
theorem test_encode_table :
    [Instr.init 0, .init 1, .appbit 0 false, .appbit 0 true, .appbit 1 false, .appbit 1 true, .apprun 0 false, .apprun 0 true,
      .appint 0 0, .appint 0 2, .appint 0 3, .appint 0 4, .appint 0 8, .appint 0 32, .appint 0 33, .appint 0 63,
      .rdbit 0, .rdbit 2, .tobytes 0, .rdbyte 0, .clone 1 0, .clone 2 0, .concat 0 0, .concat 0 1, .len 0, .len 2].map encode =
    [0x00000001, 0x00000011, 0x00000002, 0x00001002, 0x00000012, 0x00001012, 0x00000003, 0x00001003,
      0x00000004, 0x00004004, 0x00006004, 0x00008004, 0x00010004, 0x00040004, 0x00042004, 0x0007E004,
      0x00000005, 0x00000025, 0x00000006, 0x00000007, 0x00000018, 0x00000028, 0x00000009, 0x00000109, 0x0000000A, 0x0000002A] := by
  decide

/-- The decoder vectors of 95_test_vectors.md 2.8, and one word for each kind of R75. -/
theorem test_decode_vectors :
    [0x00000000, 0x0000000B, 0x0000000F, 0x00080001, 0x80000005, 0x00000105, 0x00002001, 0x00042004, 0x000000F2].map decodeCmd =
    [.illegal .reservedOpcode, .illegal .reservedOpcode, .illegal .reservedOpcode, .illegal .reservedBits, .illegal .reservedBits,
      .illegal .unusedField, .illegal .unusedField, .command (.appint 0 33), .command (.appbit 15 false)] := by decide

theorem test_decode_table_word : decodeTableWord 32 0x00000109 = some (.concat 0 1) ∧ decodeTableWord 32 0 = none := by decide

/-! ### Address decoder (95_test_vectors.md 2.1) -/

theorem test_address_decoder :
    [0, 1, 7, 8, 13, 63, 0x7FFFFFFF, 0x80000000, 0xFFFFFFFF].map (fun p : Word => (byteIndex p, bitShift p, bitMask p)) =
    [(0, 7, 0x80), (0, 6, 0x40), (0, 0, 0x01), (1, 7, 0x80), (1, 2, 0x04), (7, 0, 0x01), (0x0FFFFFFF, 0, 0x01),
      (0x10000000, 7, 0x80), (0x1FFFFFFF, 0, 0x01)] := by decide

/-! ### Commands (95_test_vectors.md 2.3 to 2.7): the slot, RESULT and STATUS after one completion -/

theorem test_init_discards : after [slotOf [0xA0] 3, Slot.fresh] 0x00000001 0 0 = some (some (slotOf [0x00] 0), 0, 0x00) := by decide
theorem test_init_bad_slot : (after someSlots 0x00000041 0 0).map (·.2.2) = some 0x50 := by decide
theorem test_appbit_grows : after [slotOf [0xFF] 8, Slot.fresh] 0x00000002 0 0 = some (some (slotOf [0xFF, 0x00] 9), 0, 0x00) := by decide
theorem test_appbit_fills : after [slotOf [0xFE] 7, Slot.fresh] 0x00001002 0 0 = some (some (slotOf [0xFF] 8), 0, 0x00) := by decide
theorem test_apprun_twelve : after [Slot.fresh, Slot.fresh] 0x00001003 12 0 = some (some (slotOf [0xFF, 0xF0] 12), 0, 0x00) := by decide
theorem test_apprun_no_wrap : after [Slot.fresh, Slot.fresh] 0x00001003 0xFFFFFFFF 0 = some (some Slot.fresh, 0, 0x30) := by decide
theorem test_appint_straddles :
    after [slotOf [0xA0] 3, Slot.fresh] 0x00010004 0x000000AB 0 = some (some (slotOf [0xB5, 0x60] 11), 0, 0x00) := by decide
theorem test_appint_width_before_capacity : (after someSlots 0x00050034 1 3).map (·.2.2) = some 0x20 := by decide
theorem test_rdbit_two : (after someSlots 0x00000005 2 0).map (·.2) = some (1, 0x00) := by decide
theorem test_rdbit_out : (after someSlots 0x00000005 4 0).map (·.2) = some (0, 0x10) := by decide
theorem test_tobytes_ten : (after [slotOf [0xFF, 0xC0] 10, Slot.fresh] 0x00000006 0 0).map (·.2) = some (2, 0x00) := by decide
theorem test_tobytes_empty : (after [Slot.fresh, Slot.fresh] 0x00000006 0 0).map (·.2) = some (0, 0x00) := by decide
theorem test_rdbyte_last : (after [slotOf [0xFF, 0xC0] 10, Slot.fresh] 0x00000007 1 0).map (·.2) = some (0xC0, 0x00) := by decide
theorem test_rdbyte_placeholder : (after [Slot.fresh, Slot.fresh] 0x00000007 0 0).map (·.2) = some (0, 0x10) := by decide
theorem test_clone_shrinks :
    after [slotOf [0x40] 2, slotOf [0xFF, 0x80] 9] 0x00000018 0 1 = some (some (slotOf [0x40] 2), 0, 0x00) := by decide
theorem test_clone_bad_source : (after someSlots 0x00000408 0 0).map (·.2.2) = some 0x50 := by decide
theorem test_concat_crosses_byte :
    after [slotOf [0xFE] 7, slotOf [0xA0] 3] 0x00000109 0 0 = some (some (slotOf [0xFF, 0x40] 10), 0, 0x00) := by decide
theorem test_concat_self : after [slotOf [0xC0] 3, Slot.fresh] 0x00000009 0 0 = some (some (slotOf [0xD8] 6), 0, 0x00) := by decide
theorem test_len_four : (after someSlots 0x0000000A 0 0).map (·.2) = some (4, 0x00) := by decide
theorem test_illegal_word : (after someSlots 0x00080001 0 0).map (·.2.2) = some 0x40 := by decide

/-! ### Host registers (95_test_vectors.md 2.9) and rendering (2.10) -/

theorem test_write_cmd_idle : afterHost (hosting false false (.wr atCmd 0x00001002)) = some (9, 0x00001002, 9, 0x001, none) := by decide
theorem test_write_cmd_busy : afterHost (hosting true false (.wr atCmd 0x00000001)) = some (9, 0, 0, 0x101, none) := by decide
theorem test_write_operand_busy : afterHost (hosting true false (.wr atOperand 5)) = some (5, 0, 0, 0x001, none) := by decide
theorem test_write_status_keeps_ovr : afterHost (hosting false true (.wr atStatus 0xFF)) = some (9, 0, 0, 0x100, none) := by decide
theorem test_write_status_clears_ovr : afterHost (hosting false true (.wr atStatus 0x100)) = some (9, 0, 0, 0x000, none) := by decide
theorem test_read_cmd : afterHost (hosting false false (.rd atCmd 0)) = some (9, 0, 0, 0, some 0) := by decide
theorem test_read_nbuf : afterHost (hosting false false (.rd (wordAt 0x10) 0)) = some (9, 0, 0, 0, some 4) := by decide
theorem test_read_capbytes : afterHost (hosting false false (.rd (wordAt 0x14) 0)) = some (9, 0, 0, 0, some 8) := by decide
theorem test_read_reserved : afterHost (hosting false false (.rd (wordAt 0x18) 0)) = some (9, 0, 0, 0, some 0) := by decide
theorem test_describe : describe 8 (slotOf [0xB0] 4) = .ok ['1', '0', '1', '1', '(', '4', ')'] := by decide
theorem test_describe_empty : describe 8 Slot.fresh = .ok ['<', 'e', 'm', 'p', 't', 'y', '>'] := by decide
theorem test_with_fetch_word : (nextOf (step (State.reset.withFetchWord 32 0x00001002))).map (·.slots[0]?) =
    some (some (slotOf [0x80] 1)) := by decide

/-! ### Host programs (95_test_vectors.md program P1 line 9, W1; 30_encoding.md R83) -/

theorem test_exec_imm_ops : execImmOps (.appint 0 4) 0x0000000B = [.wr atOperand 0x0000000B, .wr atCmd 0x00008004, .wait] := by decide
theorem test_appbits_ops : appbitsOps 1 [false, true] = [.wr atCmd 0x00000012, .wait, .wr atCmd 0x00001012, .wait] := by decide
/-- READBYTES 0 after TOBYTES has left RESULT = 1: h9 <- 1, then one RDBYTE into h0. -/
theorem test_readbytes_walk :
    (nextOf (step { hosting false false (.rdCount .bytes 0 9 0) with result := 1 })).map (fun t => (t.program, cellRead t.hostVars 9)) =
    some ([.wr atOperand 0, .wr atCmd 0x00000007, .wait, .rd atResult 0], some 1) := by decide

/-! ### Witnesses: every hypothesis of each obligation, met together -/

/-- These slots, with an operand latched and a command pending, the engine's turn next. -/
def busyState (op : Word) : State := pending someSlots 0x00000105 op

/-- The slot of 64 ones. -/
def fullSlot : Slot := slotOf [0xFF, 0xFF, 0xFF, 0xFF, 0xFF, 0xFF, 0xFF, 0xFF] 64

theorem witness_DecodeOfEncode : WellFormed (.appint 15 63) ∧ WellFormed (.concat 15 15) ∧ WellFormed (.init 0) := by decide

theorem witness_EncodeOfDecode : decodeCmd 0x0007E0F4 = .command (.appint 15 63) := by decide

theorem witness_WordSelectsAtMostOneRow : ∃ r, rows[9]? = some r ∧ r.selects 0x0000002A := ⟨_, rfl, by decide⟩

/-- The five kinds of words at the ends of their ranges, and a state that completes one. -/
theorem witness_IllegalWordsCompleteWithIllegal :
    [0x00000000, 0x0000000B, 0x00080001, 0x00000101, 0x00002002, 0x00001004, 0x00001008].map (fun w => (decodeCmd w).instr?) =
      [none, none, none, none, none, none, none] ∧
    (busyState 0).schedule = [.engine] ∧ (busyState 0).status.busy = true ∧
    decodeCmd (busyState 0).pendCmd = .illegal .unusedField := by decide

theorem witness_WideAppintIsWidthInvalid :
    ((3 < 16 ∧ 33 ≤ 63) ∧ 33 ≤ 33 ∧ 3 < (busyState 0).nbuf) ∧ (63 ≤ 63 ∧ 33 ≤ 63) ∧ (32 ≤ 63 ∧ ¬ 33 ≤ 32) := by decide

/-- The last byte below the capacity, the first index at it, present and absent. -/
theorem witness_MemWriteThenRead :
    Memory.wf fullSlot.storage ∧ (7 < 8 ∧ 7 < fullSlot.byteLen.toNat) ∧ 8 ≤ 8 ∧ (1 < 8 ∧ ¬ 1 < Slot.fresh.byteLen.toNat) := by
  decide

/-- BITCOUNT 8 adds a byte, 0 and 63 do not. -/
theorem witness_GrowAddsOneZeroByte :
    ((slotOf [0xFF] 8).Inv 8 ∧ (slotOf [0xFF] 8).byteLen.toNat ≤ byteIndex 8 ∧ (slotOf [0xFF] 8).byteLen.toNat < 8 ∧
      (8 : Word) = (slotOf [0xFF] 8).bitCount ∧ (8 : Word).toNat < 8 * 8) ∧
    (Slot.fresh.Inv 8 ∧ byteIndex 0 < Slot.fresh.byteLen.toNat ∧ (0 : Word) = Slot.fresh.bitCount) ∧
    ((slotOf [0, 0, 0, 0, 0, 0, 0, 0] 63).Inv 8 ∧ byteIndex 63 < (slotOf [0, 0, 0, 0, 0, 0, 0, 0] 63).byteLen.toNat ∧
      (63 : Word) = (slotOf [0, 0, 0, 0, 0, 0, 0, 0] 63).bitCount ∧ (63 : Word).toNat < 8 * 8) := by decide

theorem witness_PutBitAppendsOneBit : (slotOf [0xB0] 4).Inv 8 ∧ (slotOf [0xB0] 4).bitCount.toNat < 8 * 8 ∧
    (3 : Word).toNat < (slotOf [0xB0] 4).bitCount.toNat := by decide

theorem witness_GetBitReadsMaskedByte : fullSlot.Inv 8 ∧ (63 : Word).toNat < fullSlot.bitCount.toNat := by decide

theorem witness_EmptySlotIsFresh : Slot.fresh.Inv 1 ∧ Slot.fresh.bitCount = 0 := by decide

theorem witness_CmdWriteIdleIssues : (hosting false false (.wr ⟨.word, 0x00⟩ 0)).schedule = [.host] ∧
    (hosting false false (.wr ⟨.word, 0x00⟩ 0)).program = [.wr ⟨.word, 0x00⟩ 0] ∧
    (hosting false false (.wr ⟨.word, 0x00⟩ 0)).status.busy = false := by decide

theorem witness_CmdWriteBusySetsOvr : (hosting true false (.wr ⟨.word, 0x00⟩ 1)).schedule = [.host] ∧
    (hosting true false (.wr ⟨.word, 0x00⟩ 1)).program = [.wr ⟨.word, 0x00⟩ 1] ∧
    (hosting true false (.wr ⟨.word, 0x00⟩ 1)).status.busy = true := by decide

theorem witness_OperandWriteSetsOperand : (hosting true false (.wr ⟨.word, 0x04⟩ 5)).schedule = [.host] ∧
    (hosting true false (.wr ⟨.word, 0x04⟩ 5)).program = [.wr ⟨.word, 0x04⟩ 5] := by decide

theorem witness_StatusWriteClearsOvr : (hosting false true (.wr ⟨.word, 0x0C⟩ 0x100)).schedule = [.host] ∧
    (hosting false true (.wr ⟨.word, 0x0C⟩ 0x100)).program = [.wr ⟨.word, 0x0C⟩ 0x100] ∧
    (0x100 : Word).getLsbD 8 = true := by decide

/-- Each offset the statement names, the ends of the reserved range among them. -/
theorem witness_ReadOnlyWritesIgnored : ∀ off ∈ [0x08, 0x10, 0x14, 0x18, 0x3C],
    (hosting false false (.wr ⟨.word, off⟩ 7)).schedule = [.host] ∧
    (hosting false false (.wr ⟨.word, off⟩ 7)).program = [.wr ⟨.word, off⟩ 7] ∧
    (off = 0x08 ∨ off = 0x10 ∨ off = 0x14 ∨ (0x18 ≤ off ∧ off ≤ 0x3C ∧ off % 4 = 0)) := by decide

/-- Each register's offset and the ends of the reserved range; and a step that leaves BUSY = 1. -/
theorem witness_HostReadsReturnRegisters : (∀ off ∈ [0x00, 0x04, 0x08, 0x0C, 0x10, 0x14, 0x18, 0x3C],
      (hosting true false (.rd ⟨.word, off⟩ 0)).schedule = [.host] ∧
      (hosting true false (.rd ⟨.word, off⟩ 0)).program = [.rd ⟨.word, off⟩ 0] ∧ off % 4 = 0 ∧ off ≤ 0x3C) ∧
    ∃ t, step (hosting true false (.rd ⟨.word, 0x0C⟩ 0)) = .next t ∧ t.status.busy = true :=
  ⟨by decide, exists_next (fun t => t.status.busy) (by decide)⟩

/-- A byte access, a misaligned one, one just past the window, and a burst. -/
theorem witness_OtherAccessesRefused : ∀ a ∈ [⟨.byte, 0⟩, ⟨.word, 2⟩, ⟨.word, 0x40⟩, ⟨.burst, 0⟩, (⟨.halfword, 0x3C⟩ : BusAccess)],
    (hosting false false (.wr a 7)).schedule = [.host] ∧ (hosting false false (.wr a 7)).program = [.wr a 7] ∧
    (hosting false false (.rd a 7)).program = [.rd a 7] ∧ ¬ (a.kind = .word ∧ a.offset % 4 = 0 ∧ a.offset ≤ 0x3C) := by decide

theorem witness_HostStepsUnlessRefused : (hosting true false .wait).schedule = [.host] := by decide

theorem witness_WaitEndsWhenIdle : ∀ busy ∈ [true, false], (hosting busy false .wait).schedule = [.host] ∧
    (hosting busy false .wait).program = [.wait] ∧ (hosting busy false .wait).status.busy = busy := by decide

theorem witness_StepRunsDecodedCommand : (pending someSlots 0x00000109 0).schedule = [.engine] ∧
    (pending someSlots 0x00000109 0).status.busy = true ∧
    decodeCmd (pending someSlots 0x00000109 0).pendCmd = .command (.concat 0 1) ∧
    ({ pending someSlots 0x00000109 0 with schedule := [] } : State).schedule = [] := by decide

theorem witness_IdleEngineTurnPasses : ({ State.reset with schedule := [.engine] } : State).schedule = [.engine] ∧
    ({ State.reset with schedule := [.engine] } : State).status.busy = false := by decide

/-- A completion with an error. -/
theorem witness_ErrorsAreExact : ∃ t, engineStep (busyState 0) = .next t ∧ decide (t.status.ecode ≠ 0) = true :=
  exists_next (fun t => decide (t.status.ecode ≠ 0)) (by decide)

/-- The first slot number that is not there, as D and as S. -/
theorem witness_MissingSlotRaisesBadSlot : (busyState 0).nbuf ≤ (Instr.len 4).slot ∧
    ∃ c, (Instr.clone 0 4).source? = some c ∧ (busyState 0).nbuf ≤ c := ⟨by decide, 4, rfl, by decide⟩

theorem witness_FirstErrorIsReported :
    (busyState 0).Inv ∧ (busyState 0).schedule = [.engine] ∧ (busyState 0).status.busy = true := by decide

theorem witness_InitMakesFreshSlot : (busyState 0).Inv ∧ 3 < (busyState 0).nbuf := by decide

/-- A slot with room for exactly one bit. -/
theorem witness_AppbitAppendsBit : (pending [slotOf [0, 0, 0, 0, 0, 0, 0, 0] 63, Slot.fresh] 0 0).Inv ∧
    (pending [slotOf [0, 0, 0, 0, 0, 0, 0, 0] 63, Slot.fresh] 0 0).slots[0]? = some (slotOf [0, 0, 0, 0, 0, 0, 0, 0] 63) ∧
    (slotOf [0, 0, 0, 0, 0, 0, 0, 0] 63).bitCount.toNat + 1 ≤ 8 * 8 := by decide

/-- A run that fills the slot, and a run of none. -/
theorem witness_ApprunAppendsRun : (busyState 60).Inv ∧ (busyState 60).slots[0]? = some (slotOf [0xB0] 4) ∧
    (slotOf [0xB0] 4).bitCount.toNat + (busyState 60).pendOp.toNat ≤ 8 * (busyState 60).capBytes ∧
    (slotOf [0xB0] 4).bitCount.toNat + (busyState 0).pendOp.toNat ≤ 8 * (busyState 0).capBytes := by decide

theorem witness_HugeRunRaisesCapacity :
    (busyState 0xFFFFFFFF).Inv ∧ 3 < (busyState 0xFFFFFFFF).nbuf ∧ (busyState 0xFFFFFFFF).pendOp = 0xFFFFFFFF := by decide

theorem witness_AppintAppendsField : (busyState 0xAB).Inv ∧ (busyState 0xAB).slots[0]? = some (slotOf [0xB0] 4) ∧
    (slotOf [0xB0] 4).bitCount.toNat + 32 ≤ 8 * (busyState 0xAB).capBytes := by decide

theorem witness_AppintRoundTrip : (busyState 0xAB).Inv ∧ (busyState 0xAB).slots[0]? = some (slotOf [0xB0] 4) ∧
    (∃ t, exec (.appint 0 32) (busyState 0xAB) = .next t ∧ decide (t.status.ecode = 0) = true) ∧
    ∃ t, exec (.appint 0 1) (busyState 0xAB) = .next t ∧ decide (t.status.ecode = 0) = true :=
  ⟨by decide, by decide, exists_next (fun t => decide (t.status.ecode = 0)) (by decide),
    exists_next (fun t => decide (t.status.ecode = 0)) (by decide)⟩

theorem witness_AppendLaws : (busyState 3).Inv ∧ appendCount (busyState 3) (.apprun 0 true) = some 3 ∧
    (busyState 3).slots[(Instr.apprun 0 true).slot]? = some (slotOf [0xB0] 4) ∧
    ∃ t, exec (.apprun 0 true) (busyState 3) = .next t ∧ decide (t.status.ecode = 0) = true :=
  ⟨by decide, by decide, by decide, exists_next (fun t => decide (t.status.ecode = 0)) (by decide)⟩

/-- The last bit of a slot. -/
theorem witness_RdbitReadsBit : (busyState 3).Inv ∧ (busyState 3).slots[0]? = some (slotOf [0xB0] 4) ∧
    (busyState 3).pendOp.toNat < (slotOf [0xB0] 4).bitCount.toNat := by decide

/-- The last position in range, the first out of it, and 2^31. -/
theorem witness_RdbitRangeLaw : (busyState 3).Inv ∧ (busyState 3).slots[0]? = some (slotOf [0xB0] 4) ∧
    (3 : Word).toNat < (slotOf [0xB0] 4).bitCount.toNat ∧ (slotOf [0xB0] 4).bitCount.toNat ≤ (4 : Word).toNat ∧
    2 ^ 31 ≤ (0x80000000 : Word).toNat := by decide

theorem witness_TobytesReturnsViewLength : (busyState 0).Inv ∧ (busyState 0).slots[2]? = some Slot.fresh := by decide

/-- A byte with padding after the last bit. -/
theorem witness_RdbyteSumsGetBits : (busyState 0).Inv ∧ (busyState 0).slots[0]? = some (slotOf [0xB0] 4) ∧
    (busyState 0).pendOp.toNat < ((slotOf [0xB0] 4).bitCount.toNat + 7) / 8 ∧
    (slotOf [0xB0] 4).bitCount.toNat ≤ 8 * (busyState 0).pendOp.toNat + 4 := by decide

/-- The placeholder byte, and the first index past the view. -/
theorem witness_RdbyteOutsideViewOutOfRange : (busyState 0).slots[2]? = some Slot.fresh ∧
    (Slot.fresh.bitCount.toNat + 7) / 8 ≤ (busyState 0).pendOp.toNat ∧
    ((slotOf [0xB0] 4).bitCount.toNat + 7) / 8 ≤ (busyState 1).pendOp.toNat := by decide

theorem witness_LenReturnsBitCount : (busyState 0).slots[3]? = some fullSlot := by decide

theorem witness_CloneCopiesSlot : (busyState 0).Inv ∧ 1 < (busyState 0).nbuf ∧ (busyState 0).slots[3]? = some fullSlot ∧
    (busyState 0).slots[1]? = some (slotOf [0x40] 2) := by decide

/-- Two slots, and a slot with itself. -/
theorem witness_ConcatAppendsStream : (busyState 0).Inv ∧ (busyState 0).slots[0]? = some (slotOf [0xB0] 4) ∧
    (busyState 0).slots[1]? = some (slotOf [0x40] 2) ∧
    (slotOf [0xB0] 4).bitCount.toNat + (slotOf [0x40] 2).bitCount.toNat ≤ 8 * (busyState 0).capBytes ∧
    (slotOf [0xB0] 4).bitCount.toNat + (slotOf [0xB0] 4).bitCount.toNat ≤ 8 * (busyState 0).capBytes := by decide

/-- The source as long as the room left. -/
theorem witness_ConcatEqualsSuccessiveAppbits : (busyState 0).Inv ∧ (busyState 0).slots[2]? = some Slot.fresh ∧
    (busyState 0).slots[3]? = some fullSlot ∧
    Slot.fresh.bitCount.toNat + fullSlot.bitCount.toNat ≤ 8 * (busyState 0).capBytes := by decide

theorem witness_CloneIsIndependent : (busyState 0).Inv ∧ 1 < (busyState 0).nbuf ∧ (busyState 0).slots[3]? = some fullSlot ∧
    ∃ t, exec (.clone 1 3) (busyState 0) = .next t ∧
      (nextOf (exec (.init 1) { t with pendOp := 0 })).isSome = true :=
  ⟨by decide, by decide, by decide, exists_next (fun t => (nextOf (exec (.init 1) { t with pendOp := 0 })).isSome) (by decide)⟩

theorem witness_BitsAsStringShowsStream : (slotOf [0xB0] 4).Inv 8 ∧ 3 < (slotOf [0xB0] 4).bitCount.toNat := by decide

theorem witness_DescribeIsEmptyIffNoBits : (slotOf [0xB0] 4).Inv 8 ∧ (slotOf [0xB0] 4).bitCount ≠ 0 ∧ Slot.fresh.Inv 8 := by decide

/-- An inspecting command, one that is not, and one that ends with an error. -/
theorem witness_InspectingCommandsChangeNoSlot :
    (∃ t, exec (.rdbit 0) (busyState 2) = .next t ∧ decide ((Instr.rdbit 0).inspecting = true) = true) ∧
    (∃ t, exec (.init 0) (busyState 2) = .next t ∧ decide ((Instr.init 0).inspecting = false) = true) ∧
    ∃ t, exec (.rdbit 0) (busyState 4) = .next t ∧ decide (t.status.ecode ≠ 0) = true :=
  ⟨exists_next _ (by decide), exists_next _ (by decide), exists_next (fun t => decide (t.status.ecode ≠ 0)) (by decide)⟩

/-- A completed INIT and a reset that change a slot. -/
theorem witness_OnlyMutatingCommandsChangeSlots :
    (∃ t, step (pending someSlots 0x00000001 0) = .next t ∧ decide (t.slots ≠ someSlots) = true) ∧
    ∃ t, step { withSlots someSlots with schedule := [.rst] } = .next t ∧ decide (t.slots ≠ someSlots) = true :=
  ⟨exists_next (fun t => decide (t.slots ≠ someSlots)) (by decide), exists_next (fun t => decide (t.slots ≠ someSlots)) (by decide)⟩

theorem witness_ParametersNeverChange : ∃ t, step { withSlots someSlots with schedule := [.rst] } = .next t ∧ true = true :=
  exists_next (fun _ => true) (by decide)

theorem witness_PendingLatchIsHeld : (hosting true false (.wr atOperand 5)).status.busy = true ∧
    ∃ t, step (hosting true false (.wr atOperand 5)) = .next t ∧ t.status.busy = true :=
  ⟨by decide, exists_next (fun t => t.status.busy) (by decide)⟩

/-- A completion that changes ECODE, one that changes RESULT, and an issue. -/
theorem witness_StatusChangesOnlyAsStated :
    (∃ t, step (busyState 0) = .next t ∧ decide (t.status.ecode ≠ (busyState 0).status.ecode) = true) ∧
    (∃ t, step (pending someSlots 0x0000000A 0) = .next t ∧ decide (t.result ≠ 0) = true) ∧
    (hosting false false (.wr atCmd 1)).status.busy = false ∧
    ∃ t, step (hosting false false (.wr atCmd 1)) = .next t ∧ t.status.busy = true :=
  ⟨exists_next (fun t => decide (t.status.ecode ≠ (busyState 0).status.ecode)) (by decide),
    exists_next (fun t => decide (t.result ≠ 0)) (by decide), by decide, exists_next (fun t => t.status.busy) (by decide)⟩

/-- OVR set by an overrun, cleared by a STATUS write, cleared by reset. -/
theorem witness_OvrIsStickyUntilCleared :
    (∃ t, step (hosting true false (.wr atCmd 1)) = .next t ∧ t.status.ovr = true) ∧
    (∃ t, step (hosting false true (.wr atStatus 0x100)) = .next t ∧ (!t.status.ovr) = true) ∧
    ∃ t, step { hosting false true .wait with schedule := [.rst] } = .next t ∧ (!t.status.ovr) = true :=
  ⟨exists_next (fun t => t.status.ovr) (by decide), exists_next (fun t => !t.status.ovr) (by decide),
    exists_next (fun t => !t.status.ovr) (by decide)⟩

theorem witness_HostWritesCommuteWithCompletion : (hosting true true (.wr atStatus 0x100)).status.busy = true ∧
    (hosting true true (.wr atStatus 0x100)).program = [.wr atStatus 0x100] ∧ atStatus.kind = .word ∧
    atStatus.offset % 4 = 0 ∧ atStatus.offset ≤ 0x3C ∧ atStatus.offset ≠ 0x00 := by decide

/-- `EXEC.I APPINT 0, 4, 0x0000000B` from reset. -/
theorem witness_ExecImmediateRunsCommand : WellFormed (.appint 0 4) ∧ State.reset.schedule = [] ∧
    State.reset.status.busy = false ∧ ∃ t, exec (.appint 0 4) { State.reset with
      operand := 0xB, pendOp := 0xB, pendCmd := encode (.appint 0 4), program := [.wait]
      status := { State.reset.status with busy := true } } = .next t ∧ decide (t.status.ecode = 0) = true :=
  ⟨by decide, by decide, by decide, exists_next (fun t => decide (t.status.ecode = 0)) (by decide)⟩

/-- The smallest and the largest configuration of R6, and TC. -/
theorem witness_ResetValues :
    Config.Legal { nbuf := 2, capBytes := 1 } ∧ Config.Legal { nbuf := 16, capBytes := 2 ^ 28 } ∧ Config.tc.Legal := by decide

theorem witness_ResetEventRestoresResetState : ({ busyState 0 with schedule := [.rst] } : State).schedule = [.rst] ∧
    ({ busyState 0 with schedule := [.rst] } : State).status.busy = true := by decide

theorem witness_ResetMeetsInvariants : Config.tc.Legal := by decide

theorem witness_StepKeepsInvariants : (pending someSlots 0x00000109 0).Inv ∧
    ∃ t, step (pending someSlots 0x00000109 0) = .next t ∧ decide (t.slots ≠ someSlots) = true :=
  ⟨by decide, exists_next (fun t => decide (t.slots ≠ someSlots)) (by decide)⟩

/-- A state that goes on and a state that stops. -/
theorem witness_OnlyRefusedAccessesStop : (busyState 0).Inv ∧ (hosting false false (.rd ⟨.byte, 0⟩ 0)).Inv := by decide

theorem witness_EngineRefinesBitLists : (pending [slotOf [0xB0] 4, Slot.fresh] 0 0).Inv ∧
    (pending [slotOf [0xB0] 4, Slot.fresh] 0 0).Holds [[true, false, true, true], []] := ⟨by decide, rfl⟩

end Sys2Proof.Tests
end

section
/-! SUPPORT. Bits read as numbers: the number a bit list spells, and the byte view of a slot's stream, which is the byte that
storage holds (00_scope.md R13, 10_state.md R25). -/

namespace Sys2Proof.Machine

variable {cap : Nat} {b : Slot}

@[simp] theorem bitsToNat_append_singleton (bs : List Bool) (v : Bool) : bitsToNat (bs ++ [v]) = 2 * bitsToNat bs + v.toNat := by
  simp [bitsToNat]

/-- The bits of a number from bit `w - 1` down to bit 0 spell the number modulo `2 ^ w`. -/
theorem bitsToNat_testBits (w x : Nat) : bitsToNat ((List.range w).map fun i => x.testBit (w - 1 - i)) = x % 2 ^ w := by
  induction w generalizing x with
  | zero => simp [bitsToNat, Nat.mod_one]
  | succ w ih =>
    have hhigh : (List.range w).map (fun i => x.testBit (w - i)) = (List.range w).map fun i => (x / 2).testBit (w - 1 - i) :=
      List.map_congr_left fun i hi => by
        rw [← Nat.testBit_succ, show (w - 1 - i).succ = w - i by have := List.mem_range.1 hi; omega]
    have hlow : (x.testBit 0).toNat = x % 2 := Nat.toNat_testBit x 0 |>.trans (by simp)
    rw [List.range_succ, List.map_append, List.map_singleton, bitsToNat_append_singleton, Nat.add_sub_cancel, hhigh, ih,
      Nat.sub_self, hlow, Nat.pow_succ', Nat.mod_mul, Nat.add_comm]

/-- The view pads the stream with the zero bits that storage holds beyond it (INV3), so its bits are the stored ones. -/
theorem Slot.Inv.streamBits_view (h : b.Inv cap) {i : Nat} {v : Byte} (hv : cellRead b.storage i = some v)
    (hi : i < b.byteLen.toNat) :
    ((streamBits b).drop (8 * i) ++ List.replicate 8 false).take 8 = (List.range 8).map fun j => v.getLsbD (8 - 1 - j) := by
  obtain ⟨-, -, -, hzero⟩ := id h
  apply List.ext_getElem (by simp)
  intro j h₁ h₂
  have hj : j < 8 := by simpa using h₂
  have hbit : storedBit b.storage (8 * i + j) = some (v.getLsbD (8 - 1 - j)) := by
    rw [storedBit, show (8 * i + j) / 8 = i by omega, hv, show (8 * i + j) % 8 = j by omega]; rfl
  rw [List.getElem_take, List.getElem_map, List.getElem_range]
  by_cases hlt : 8 * i + j < b.bitCount.toNat
  · rw [List.getElem_append_left (by simp only [List.length_drop, length_streamBits]; omega), List.getElem_drop]
    exact Option.some.inj ((h.streamBits_get hlt).symm.trans hbit)
  · rw [List.getElem_append_right (by simp only [List.length_drop, length_streamBits]; omega), List.getElem_replicate]
    exact Option.some.inj ((hzero _ (by omega) (by omega)).symm.trans hbit)

theorem Slot.Inv.viewByte_eq (h : b.Inv cap) {i : Nat} {v : Byte} (hv : cellRead b.storage i = some v)
    (hi : i < b.byteLen.toNat) : viewByte (streamBits b) i = v.toNat := by
  rw [viewByte, h.streamBits_view hv hi]
  exact (bitsToNat_testBits 8 v.toNat).trans (Nat.mod_eq_of_lt v.isLt)

end Sys2Proof.Machine
end

section
/-! SUPPORT. The engine refines the source's BitBuffer (00_scope.md R3): the ways a command ends, seen on bit lists, then one lemma
per command, then obligation O60. -/

namespace Sys2Proof.Machine

/-- The bit lists the slots hold (44_observation.md R140). -/
def State.streams (s : State) : List (List Bool) := s.slots.map streamBits

/-- `t` is `s` after a completion that has the effect `e` on bit lists, and nothing else has changed. -/
structure Realises (s : State) (e : BufferEffect) (t : State) : Prop where
  holds : t.Holds e.buffers
  status : t.status = { s.status with busy := false, ecode := e.code.code }
  result : t.result = e.result.elim s.result (BitVec.ofNat 32)
  rest : t = { s with slots := t.slots, result := t.result, status := t.status }

/-- A command runs on the slots as its operation runs on the bit lists they hold. -/
def Refines (i : Instr) (s : State) : Prop :=
  ∃ t, exec i s = .next t ∧ Realises s (bufferEffect (8 * s.capBytes) i s.pendOp s.streams) t

variable {i : Instr} {s : State} {d c : Nat} {b b' : Slot}

theorem streams_get (hb : s.slots[d]? = some b) : s.streams[d]? = some (streamBits b) := by simp [State.streams, hb]

theorem streams_get_none (h : s.nbuf ≤ d) : s.streams[d]? = none := by simpa [State.streams, State.nbuf] using h

theorem streams_set_self (hb : s.slots[d]? = some b) : s.streams.set d (streamBits b) = s.streams := by
  obtain ⟨hd, e⟩ := List.getElem?_eq_some_iff.1 (streams_get hb)
  rw [← e, List.set_getElem_self hd]

theorem bufferEffect_badSlot {capBits : Nat} {v : Word} {xs : List (List Bool)} (h : xs[i.slot]? = none) :
    bufferEffect capBits i v xs = ⟨.badSlot, xs, none⟩ := by rw [bufferEffect, h]

theorem exec_badSlot (h : s.nbuf ≤ i.slot) : exec i s = .next (raised .badSlot s) := by
  cases i <;> exact withSlot_bad h _

theorem holds_map_streamBits {cap : Nat} (hc : CapOk cap) {bs : List Slot} (h : ∀ b ∈ bs, b.Inv cap) :
    bs.map (bitsOf cap) = (bs.map streamBits).map Except.ok := by
  rw [List.map_map]
  exact List.map_congr_left fun b hb => bitsOf_ok (h b hb) hc

theorem State.Inv.all_slots (h : s.Inv) : ∀ b ∈ s.slots, b.Inv s.capBytes := h.2.1

theorem State.Inv.holds_streams (h : s.Inv) : s.Holds s.streams := holds_map_streamBits h.capOk h.all_slots

theorem State.Inv.eq_streams (h : s.Inv) {xs : List (List Bool)} (hx : s.Holds xs) : xs = s.streams :=
  List.map_injective_iff.2 (fun _ _ => Except.ok.inj) (hx.symm.trans h.holds_streams)

/-! The ways a command ends. -/

theorem refines_error (h : s.Inv) {e : ECode} (he : exec i s = .next (raised e s))
    (hx : bufferEffect (8 * s.capBytes) i s.pendOp s.streams = ⟨e, s.streams, none⟩) : Refines i s :=
  ⟨_, he, by rw [hx]; exact ⟨h.holds_streams, rfl, rfl, rfl⟩⟩

theorem refines_result (h : s.Inv) {r : Word} {n : Nat} (he : exec i s = .next (completedWith r s))
    (hx : bufferEffect (8 * s.capBytes) i s.pendOp s.streams = ⟨.ok, s.streams, some n⟩) (hr : r = BitVec.ofNat 32 n) :
    Refines i s :=
  ⟨_, he, by rw [hx]; exact ⟨h.holds_streams, rfl, hr, rfl⟩⟩

theorem refines_write (h : s.Inv) (hb' : b'.Inv s.capBytes) (he : exec i s = .next (completed (setSlot s d b')))
    (hx : bufferEffect (8 * s.capBytes) i s.pendOp s.streams = ⟨.ok, s.streams.set d (streamBits b'), none⟩) : Refines i s := by
  refine ⟨_, he, ?_⟩
  rw [hx]
  refine ⟨?_, rfl, rfl, rfl⟩
  show (s.slots.set d b').map _ = ((s.slots.map streamBits).set d (streamBits b')).map _
  rw [← List.map_set]
  exact holds_map_streamBits h.capOk fun x hx => (List.mem_or_eq_of_mem_set hx).elim (h.all_slots x) (· ▸ hb')

theorem refines_plain (h : s.Inv) (he : exec i s = .next (completed s))
    (hx : bufferEffect (8 * s.capBytes) i s.pendOp s.streams = ⟨.ok, s.streams, none⟩) : Refines i s :=
  ⟨_, he, by rw [hx]; exact ⟨h.holds_streams, rfl, rfl, rfl⟩⟩

/-- An append that succeeds: the slot's stream grows by the bits `vs`. -/
theorem refines_append (h : s.Inv) {vs : List Bool} (hb : s.slots[d]? = some b) (ha : Appended s.capBytes b vs b')
    (he : exec i s = .next (completed (setSlot s d b')))
    (hx : bufferEffect (8 * s.capBytes) i s.pendOp s.streams = ⟨.ok, s.streams.set d (streamBits b ++ vs), none⟩) :
    Refines i s :=
  refines_write h ha.inv he (by rw [ha.stream (h.slot hb)]; exact hx)

theorem refines_badSlot (h : s.Inv) (hd : s.nbuf ≤ i.slot) : Refines i s :=
  refines_error h (exec_badSlot hd) (bufferEffect_badSlot (streams_get_none hd))

/-- CLONE and CONCAT with a source that does not exist (60_exceptions.md R152). -/
theorem refines_badSource (h : s.Inv) (hb : s.slots[i.slot]? = some b) (hi : i.source? = some c) (hc : s.nbuf ≤ c) :
    Refines i s := by
  cases i with
  | clone d e | concat d e =>
    obtain rfl := Option.some.inj hi
    exact refines_error h ((withSlot_some hb _).trans (withSlot_bad hc _))
      (by simp [bufferEffect, streams_get hb, streams_get_none hc])
  | _ => cases hi

/-! Each command on a slot that exists. -/

theorem init_refines (h : s.Inv) (hb : s.slots[d]? = some b) : Refines (.init d) s :=
  refines_write h (Slot.fresh_inv _) (exec_init_ok hb (initSlot_ok (h.slot hb) h.capOk))
    (by simp [bufferEffect, Instr.slot, streams_get hb, streamBits, Slot.fresh])

theorem appbit_refines (h : s.Inv) (hb : s.slots[d]? = some b) (v : Bool) : Refines (.appbit d v) s := by
  by_cases hfull : 8 * s.capBytes < b.bitCount.toNat + 1
  · exact refines_error h (exec_appbit_full hb hfull) (by simp [bufferEffect, Instr.slot, streams_get hb, hfull])
  · obtain ⟨b', e, a⟩ := putBit_ok (h.slot hb) h.capOk (by omega) v
    exact refines_append h hb a (exec_appbit_ok hb (by omega) e)
      (by simp [bufferEffect, Instr.slot, streams_get hb, hfull])

theorem apprun_refines (h : s.Inv) (hb : s.slots[d]? = some b) (v : Bool) : Refines (.apprun d v) s := by
  by_cases hfull : 8 * s.capBytes < b.bitCount.toNat + s.pendOp.toNat
  · exact refines_error h (exec_apprun_full hb hfull) (by simp [bufferEffect, Instr.slot, streams_get hb, hfull])
  · obtain ⟨b', e, a⟩ := putBits_ok h.capOk (List.replicate s.pendOp.toNat v) (h.slot hb) (by simpa using hfull)
    exact refines_append h hb a (exec_apprun_ok hb (by omega) e)
      (by simp [bufferEffect, Instr.slot, streams_get hb, hfull])

theorem appint_refines (h : s.Inv) (hb : s.slots[d]? = some b) (w : Nat) : Refines (.appint d w) s := by
  by_cases hw : 32 < w
  · exact refines_error h (exec_appint_wide hb hw) (by simp [bufferEffect, Instr.slot, streams_get hb, hw])
  · by_cases hfull : 8 * s.capBytes < b.bitCount.toNat + w
    · exact refines_error h (exec_appint_full hb (by omega) hfull)
        (by simp [bufferEffect, Instr.slot, streams_get hb, hw, hfull])
    · obtain ⟨b', e, a⟩ := putBits_ok h.capOk (fieldBits s.pendOp w) (h.slot hb) (by simpa [fieldBits] using hfull)
      exact refines_append h hb a (exec_appint_ok hb (by omega) (by omega) e)
        (by simp [bufferEffect, Instr.slot, streams_get hb, hw, hfull])

theorem rdbit_refines (h : s.Inv) (hb : s.slots[d]? = some b) : Refines (.rdbit d) s := by
  by_cases hout : b.bitCount.toNat ≤ s.pendOp.toNat
  · have hnone : (streamBits b)[s.pendOp.toNat]? = none := List.getElem?_eq_none (by simpa using hout)
    exact refines_error h (exec_rdbit_out hb hout) (by simp [bufferEffect, Instr.slot, streams_get hb, hnone])
  · have hlt : s.pendOp.toNat < b.bitCount.toNat := by omega
    have hget := List.getElem?_eq_getElem (l := streamBits b) (i := s.pendOp.toNat) (by simpa using hlt)
    have hbit := getBit_eq_of_bit (h.slot hb) h.capOk (by have := (h.slot hb).count_le; omega) ((h.slot hb).streamBits_get hlt)
    rw [BitVec.ofNat_toNat, BitVec.setWidth_eq] at hbit
    exact refines_result h (exec_rdbit_ok hb hlt hbit) (by simp only [bufferEffect, Instr.slot, streams_get hb, hget]) rfl

theorem tobytes_refines (h : s.Inv) (hb : s.slots[d]? = some b) : Refines (.tobytes d) s :=
  refines_result h (n := ceil8 b.bitCount.toNat) (exec_tobytes_ok hb)
    (by simp [bufferEffect, Instr.slot, streams_get hb, ceil8]) rfl

theorem rdbyte_refines (h : s.Inv) (hb : s.slots[d]? = some b) : Refines (.rdbyte d) s := by
  by_cases hout : (b.bitCount.toNat + 7) / 8 ≤ s.pendOp.toNat
  · exact refines_error h (exec_rdbyte_out hb hout) (by simp [bufferEffect, Instr.slot, streams_get hb, hout])
  · have hi : s.pendOp.toNat < b.byteLen.toNat := by have := (h.slot hb).len_eq; omega
    obtain ⟨v, hv, hread⟩ := memRead_present (h.slot hb) h.capOk hi
    exact refines_result h (n := v.toNat) (exec_rdbyte_ok hb (Nat.lt_of_not_le hout) hread)
      (by simp [bufferEffect, Instr.slot, streams_get hb, hout, (h.slot hb).viewByte_eq hv hi]) (BitVec.ofNat_toNat 32 v).symm

theorem len_refines (h : s.Inv) (hb : s.slots[d]? = some b) : Refines (.len d) s :=
  refines_result h (n := b.bitCount.toNat) (exec_len_ok hb) (by simp [bufferEffect, Instr.slot, streams_get hb]) (by simp)

theorem clone_refines (h : s.Inv) (hb : s.slots[d]? = some b) (c : Nat) : Refines (.clone d c) s := by
  cases hs : s.slots[c]? with
  | none => exact refines_badSource h hb rfl (slot?_eq_none.1 hs)
  | some src =>
    by_cases hd : d = c
    · subst hd
      exact refines_plain h (exec_clone_self hb)
        (by simp [bufferEffect, Instr.slot, streams_get hb, streams_set_self hb])
    · exact refines_write h (h.slot hs) (exec_clone_ok hb hs hd (cloneSlot_ok (h.slot hb) (h.slot hs) h.capOk))
        (by simp [bufferEffect, Instr.slot, streams_get hb, streams_get hs])

theorem concat_refines (h : s.Inv) (hb : s.slots[d]? = some b) (c : Nat) : Refines (.concat d c) s := by
  cases hs : s.slots[c]? with
  | none => exact refines_badSource h hb rfl (slot?_eq_none.1 hs)
  | some src =>
    by_cases hfull : 8 * s.capBytes < b.bitCount.toNat + src.bitCount.toNat
    · exact refines_error h (exec_concat_full hb hs hfull)
        (by simp [bufferEffect, Instr.slot, streams_get hb, streams_get hs, hfull])
    · have hself (hd : decide (d = c) = true) : src = b := by
        obtain rfl := of_decide_eq_true hd
        exact Option.some.inj (hs.symm.trans hb)
      obtain ⟨b', e, a⟩ := concatBits_ok (h.slot hb) (h.slot hs) h.capOk (decide (d = c)) hself (by omega)
      exact refines_append h hb a (exec_concat_ok hb hs (by omega) e)
        (by simp [bufferEffect, Instr.slot, streams_get hb, streams_get hs, hfull])

/-- Every command refines its operation on bit lists, whatever its operands. -/
theorem exec_refines (h : s.Inv) (i : Instr) : Refines i s := by
  by_cases hd : s.nbuf ≤ i.slot
  · exact refines_badSlot h hd
  · obtain ⟨b, hb⟩ := exists_slot (Nat.lt_of_not_le hd)
    cases i with
    | init d => exact init_refines h hb
    | appbit d v => exact appbit_refines h hb v
    | apprun d v => exact apprun_refines h hb v
    | appint d w => exact appint_refines h hb w
    | rdbit d => exact rdbit_refines h hb
    | tobytes d => exact tobytes_refines h hb
    | rdbyte d => exact rdbyte_refines h hb
    | clone d c => exact clone_refines h hb c
    | concat d c => exact concat_refines h hb c
    | len d => exact len_refines h hb

/-- Settles O60: the lists held are the slots' streams, and each command refines its operation on them. -/
theorem engineRefinesBitLists : Obligations.EngineRefinesBitLists := by
  intro i s xs h hx
  obtain rfl := h.eq_streams hx
  obtain ⟨t, he, r⟩ := exec_refines h i
  refine ⟨t, he, r.holds, r.status, ?_, r.rest⟩
  rw [r.result]
  cases (bufferEffect (8 * s.capBytes) i s.pendOp s.streams).result <;> rfl

end Sys2Proof.Machine
end

section
/-! SUPPORT. What each agent can change, said once: the frames of a host step and of a completion, and the ways a step of the whole
machine ends in a next state. -/

namespace Sys2Proof.Machine

variable {P : Slot → Prop} {i : Instr} {s t : State} {ts : List Turn}

/-! A host step (70_reset_and_hazards.md R176). -/

theorem HostEffect.capBytes_eq (h : HostEffect s t) : t.capBytes = s.capBytes := by cases h <;> simp
theorem HostEffect.slots_eq (h : HostEffect s t) : t.slots = s.slots := by cases h <;> simp
theorem HostEffect.result_eq (h : HostEffect s t) : t.result = s.result := by cases h <;> simp
theorem HostEffect.ecode_eq (h : HostEffect s t) : t.status.ecode = s.status.ecode := by cases h <;> simp

theorem HostEffect.hostVars_wf (h : HostEffect s t) (hs : cellsWf s.hostVars) : cellsWf t.hostVars := by
  cases h with
  | idle | waited => exact hs
  | write r w rest => simpa using hs
  | read h v rest => exact cellsWf_cellWrite hs h v

theorem writeCmd_busy (w : Word) (h : s.status.busy = true) : writeCmd w s = { s with status := s.status.overrun } := if_pos h

theorem writeCmd_idle (w : Word) (h : s.status.busy = false) :
    writeCmd w s = { s with pendCmd := w, pendOp := s.operand, status := s.status.issue } := if_neg (by simp [h])

/-- Only an issue writes the latch (10_state.md R37). -/
theorem hostWrite_latch (r : HostReg) (w : Word) (h : s.status.busy = true) :
    (hostWrite r w s).pendCmd = s.pendCmd ∧ (hostWrite r w s).pendOp = s.pendOp := by
  cases r with
  | cmd => rw [hostWrite, writeCmd_busy w h]; exact ⟨rfl, rfl⟩
  | _ => exact ⟨rfl, rfl⟩

theorem HostEffect.latch_eq (h : HostEffect s t) (hs : s.status.busy = true) : t.pendCmd = s.pendCmd ∧ t.pendOp = s.pendOp := by
  cases h with
  | idle | read | waited => exact ⟨rfl, rfl⟩
  | write r w rest => exact hostWrite_latch r w hs

/-- Only a CMD write issues (10_state.md R30). -/
theorem hostWrite_issues {r : HostReg} {w : Word} (hs : s.status.busy = false) (ht : (hostWrite r w s).status.busy = true) :
    r = .cmd ∧ (hostWrite r w s).pendCmd = w ∧ (hostWrite r w s).pendOp = s.operand := by
  cases r with
  | cmd => rw [hostWrite, writeCmd_idle w hs]; exact ⟨rfl, rfl, rfl⟩
  | _ => simp [hostWrite, hs] at ht

/-! The registers of the window (10_state.md R27, R36). -/

theorem hostReg?_word {off : Nat} (h4 : off % 4 = 0) (hle : off ≤ 0x3C) : hostReg? ⟨.word, off⟩ = some (regAt off) :=
  if_pos ⟨rfl, h4, hle⟩

theorem hostReg?_illegal {a : BusAccess} (h : ¬ a.Legal) : hostReg? a = none := if_neg h

theorem eq_zero_of_regAt_cmd {off : Nat} (h : regAt off = .cmd) : off = 0x00 := by
  unfold regAt at h
  split at h
  case h_1 => rfl
  all_goals cases h

/-- CMD is at offset 0x00 alone. -/
theorem hostReg?_cmd {a : BusAccess} (h : hostReg? a = some .cmd) : a = ⟨.word, 0x00⟩ := by
  obtain ⟨kind, off⟩ := a
  unfold hostReg? at h
  split at h
  case isTrue hlegal =>
    obtain ⟨rfl, -, -⟩ := hlegal
    exact congrArg (BusAccess.mk .word) (eq_zero_of_regAt_cmd (Option.some.inj h))
  case isFalse => cases h

theorem regAt_reserved {off : Nat} (h : 0x18 ≤ off) : regAt off = .reserved := by
  unfold regAt
  split
  case h_7 => rfl
  all_goals omega

/-! A host step on its next operation. -/

theorem step_host_wr {a : BusAccess} {w : Word} {r : HostReg} {rest : List HostOp} (h : s.schedule = .host :: ts)
    (hp : s.program = .wr a w :: rest) (hr : hostReg? a = some r) :
    step s = .next (hostWrite r w { s with schedule := ts, program := rest }) :=
  (step_host h).trans (hostStep_wr hp hr)

theorem step_host_rd {a : BusAccess} {n : Nat} {r : HostReg} {rest : List HostOp} (h : s.schedule = .host :: ts)
    (hp : s.program = .rd a n :: rest) (hr : hostReg? a = some r) :
    step s = .next { s with
      schedule := ts, program := rest, hostVars := cellWrite s.hostVars n (hostRead r { s with schedule := ts }) } := by
  rw [step_host h, hostStep]
  simp only [hp, hr]
  rfl

theorem step_host_wr_refused {a : BusAccess} {w : Word} {rest : List HostOp} (h : s.schedule = .host :: ts)
    (hp : s.program = .wr a w :: rest) (hr : hostReg? a = none) : step s = .refused (.hostAccess a) := by
  rw [step_host h, hostStep]
  simp only [hp, hr]

theorem step_host_rd_refused {a : BusAccess} {n : Nat} {rest : List HostOp} (h : s.schedule = .host :: ts)
    (hp : s.program = .rd a n :: rest) (hr : hostReg? a = none) : step s = .refused (.hostAccess a) := by
  rw [step_host h, hostStep]
  simp only [hp, hr]

/-- BUSY rises in a host step by an accepted CMD write alone (10_state.md R30). -/
theorem hostStep_issues (h : hostStep s = .next t) (hs : s.status.busy = false) (ht : t.status.busy = true) :
    ∃ w rest, s.program = .wr ⟨.word, 0x00⟩ w :: rest ∧ t.pendCmd = w ∧ t.pendOp = s.operand := by
  unfold hostStep at h
  split at h
  case h_1 | h_4 | h_5 => cases h; simp [hs] at ht
  case h_2 a w rest hp =>
    split at h
    · cases h
    case h_2 r hr =>
      cases h
      obtain ⟨rfl, hcmd, hop⟩ := hostWrite_issues (s := hostNext s rest) hs ht
      exact ⟨w, rest, hostReg?_cmd hr ▸ hp, hcmd, hop⟩
  case h_3 =>
    split at h
    · cases h
    · cases h; simp [hs] at ht

/-! A completion (70_reset_and_hazards.md R177). -/

theorem Effect.capBytes_eq (h : Effect P i s t) : t.capBytes = s.capBytes := by cases h <;> rfl
theorem Effect.nbuf_eq (h : Effect P i s t) : t.nbuf = s.nbuf := by cases h <;> simp [State.nbuf]
theorem Effect.busy_eq (h : Effect P i s t) : t.status.busy = false := by cases h <;> rfl

/-- A slot that a command changes is its own, and the command is a mutating one that succeeds (10_state.md R23). -/
theorem Effect.slots_change (h : Effect P i s t) (hne : t.slots ≠ s.slots) :
    i.inspecting = false ∧ t.status.ecode = 0 ∧ ∀ d, d ≠ i.slot → t.slots[d]? = s.slots[d]? := by
  cases h with
  | error | result | plain => exact absurd rfl hne
  | write b hi hb => exact ⟨hi, rfl, fun d hd => List.getElem?_set_ne hd.symm⟩

theorem engineStep_cases (h : engineStep s = .next t) :
    t = raised .illegal s ∨ ∃ i, decodeCmd s.pendCmd = .command i ∧ exec i s = .next t := by
  unfold engineStep at h
  split at h
  · cases h; exact .inl rfl
  case h_2 i hi => exact .inr ⟨i, hi, h⟩

/-- A completion ends as a command does, an illegal word's with an error. -/
theorem engineStep_effect (h : engineStep s = .next t) : ∃ i, Effect (fun _ => True) i s t := by
  rcases engineStep_cases h with rfl | ⟨i, -, he⟩
  · exact ⟨.init 0, .error _ (by decide)⟩
  · exact ⟨i, exec_next he⟩

/-! A step of the machine. -/

/-- The turn is the engine's: a command is pending, and the schedule says so or is empty (log 4). -/
abbrev State.EngineIsNext (s : State) : Prop :=
  s.status.busy = true ∧ (s.schedule = [] ∨ ∃ ts, s.schedule = .engine :: ts)

/-- The ways a step ends in a next state; the agent moves on the state with `ts` as the turns still to come. -/
inductive StepEffect (s : State) : State → Prop
  | host {t : State} (ts : List Turn) (h : hostStep { s with schedule := ts } = .next t) : StepEffect s t
  | engine {t : State} (ts : List Turn) (hn : s.EngineIsNext) (h : engineStep { s with schedule := ts } = .next t) :
      StepEffect s t
  | passed (ts : List Turn) : StepEffect s { s with schedule := ts }
  | reset (ts : List Turn) (hsch : s.schedule = .rst :: ts) : StepEffect s (applyReset { s with schedule := ts })

theorem step_effect (h : step s = .next t) : StepEffect s t := by
  cases hsch : s.schedule with
  | nil =>
    have hs : s = { s with schedule := [] } := by rw [← hsch]
    cases hb : s.status.busy with
    | true => exact .engine [] ⟨hb, .inl hsch⟩ (by rwa [step_free_busy hsch hb, hs] at h)
    | false => exact .host [] (by rwa [step_free_idle hsch hb, hs] at h)
  | cons turn ts =>
    cases turn with
    | host => exact .host ts (by rwa [step_host hsch] at h)
    | engine =>
      rw [step_engine hsch, engineTurn] at h
      split at h
      case isTrue hb => exact .engine ts ⟨hb, .inr ⟨ts, hsch⟩⟩ h
      case isFalse => cases h; exact .passed ts
    | rst =>
      rw [step_rst hsch] at h
      cases h
      exact .reset ts hsch

end Sys2Proof.Machine
end

section
/-! SUPPORT. The invariants of 10_state.md R25: they hold after reset (O57), every step keeps them (O58), and an empty slot that
meets them is a fresh one (O13); with the reset values (O55) that these rest on. -/

namespace Sys2Proof.Machine

variable {i : Instr} {s t : State} {b : Slot}

theorem ECode.code_le (e : ECode) : e.code.toNat ≤ 5 := by cases e <;> decide

/-- A change that leaves parameters and slots keeps the invariants, if ECODE and the host's variables stay good. -/
theorem State.Inv.of_same_slots (h : s.Inv) (hcap : t.capBytes = s.capBytes) (hslots : t.slots = s.slots)
    (hcode : t.status.ecode.toNat ≤ 5) (hvars : cellsWf t.hostVars) : t.Inv := by
  obtain ⟨hlegal, hall, -, -⟩ := h
  refine ⟨?_, ?_, hcode, hvars⟩
  · rwa [State.cfg, hcap, hslots]
  · rwa [hcap, hslots]

theorem State.Inv.done (h : s.Inv) (e : ECode) (r : Word) : State.Inv { s with result := r, status := s.status.done e } := by
  obtain ⟨-, -, -, hvars⟩ := id h
  exact h.of_same_slots rfl rfl e.code_le hvars

theorem State.Inv.setSlot (h : s.Inv) (d : Nat) (hb : b.Inv s.capBytes) : (setSlot s d b).Inv := by
  obtain ⟨hlegal, hall, hcode, hvars⟩ := h
  refine ⟨?_, fun x hx => ?_, hcode, hvars⟩
  · simpa [State.cfg] using hlegal
  · exact (List.mem_or_eq_of_mem_set hx).elim (hall x) (· ▸ hb)

theorem Effect.inv (h : Effect (Slot.Inv s.capBytes) i s t) (hs : s.Inv) : t.Inv := by
  cases h with
  | error e => exact hs.done e s.result
  | result r => exact hs.done .ok r
  | plain => exact hs.done .ok s.result
  | write b hi hb => exact (hs.setSlot i.slot hb).done .ok s.result

theorem exec_inv (hs : s.Inv) (h : exec i s = .next t) : t.Inv := by
  obtain ⟨u, hu, he⟩ := exec_effect hs i
  cases h.symm.trans hu
  exact he.inv hs

theorem engineStep_inv (hs : s.Inv) (h : engineStep s = .next t) : t.Inv := by
  rcases engineStep_cases h with rfl | ⟨i, -, he⟩
  · exact hs.done .illegal s.result
  · exact exec_inv hs he

theorem HostEffect.inv (h : HostEffect s t) (hs : s.Inv) : t.Inv := by
  obtain ⟨-, -, hcode, hvars⟩ := id hs
  exact hs.of_same_slots h.capBytes_eq h.slots_eq (h.ecode_eq ▸ hcode) (h.hostVars_wf hvars)

theorem resetWith_inv {c : Config} (hc : c.Legal) : (State.resetWith c).Inv := by
  refine ⟨by simpa [State.cfg, State.resetWith] using hc, fun b hb => ?_, by simp [State.resetWith], List.Pairwise.nil⟩
  rw [List.eq_of_mem_replicate hb]
  exact Slot.fresh_inv _

theorem applyReset_inv (hs : s.Inv) : (applyReset s).Inv := by
  obtain ⟨hlegal, -, -, hvars⟩ := hs
  exact (resetWith_inv hlegal).of_same_slots rfl rfl (by simp [applyReset, State.resetWith]) hvars

/-- Settles O58: by the ways a step ends, from what each agent and the reset keep. -/
theorem stepKeepsInvariants : Obligations.StepKeepsInvariants := by
  intro s t hs h
  cases step_effect h with
  | host ts h => exact (hostStep_next h).inv (inv_schedule hs ts)
  | engine ts hn h => exact engineStep_inv (inv_schedule hs ts) h
  | passed ts => exact inv_schedule hs ts
  | reset ts hsch => exact applyReset_inv (inv_schedule hs ts)

/-- Settles O57: reset makes every slot fresh and clears ECODE. -/
theorem resetMeetsInvariants : Obligations.ResetMeetsInvariants := fun _ hc => resetWith_inv hc

/-- The invariants leave an empty slot no choice (10_state.md R26). -/
theorem Slot.Inv.eq_fresh {cap : Nat} (h : b.Inv cap) (h0 : b.bitCount = 0) : b = Slot.fresh :=
  slot_ext h (Slot.fresh_inv cap) (by simp [streamBits, h0, Slot.fresh])

theorem memRead_fresh {cap : Nat} (hc : 1 ≤ cap) : memRead cap Slot.fresh 0 = .ok 0 := if_neg (by omega)

/-- Settles O13: a slot that meets the invariants is determined by its bits, so an empty one is the fresh slot. -/
theorem emptySlotIsFresh : Obligations.EmptySlotIsFresh := by
  intro cap b hc h h0
  rw [h.eq_fresh h0]
  exact ⟨rfl, memRead_fresh hc⟩

/-- Settles O55: field by field; the parameters fit their 32-bit registers. -/
theorem resetValues : Obligations.ResetValues := by
  intro c ⟨⟨_, hn⟩, hpos, hcap⟩
  refine ⟨List.length_replicate, fun d hd => ⟨Slot.fresh, List.getElem?_replicate_of_lt hd, rfl, rfl, memRead_fresh hpos⟩,
    rfl, rfl, rfl, rfl, rfl, ?_, ?_⟩
  · have hfit : c.nbuf < 2 ^ 32 := by omega
    simpa [hostRead, State.nbuf, State.resetWith] using hfit
  · have hfit : c.capBytes < 2 ^ 32 := by omega
    simpa [hostRead, State.resetWith] using hfit

end Sys2Proof.Machine
end

section
/-! SUPPORT. What any step can change of the parameters, the slots, the latch and the status (O48 to O51). -/

namespace Sys2Proof.Machine

variable {s t : State}

/-- Settles O49: by the ways a step ends; a command writes a slot in place, and reset keeps the number of slots. -/
theorem parametersNeverChange : Obligations.ParametersNeverChange := by
  intro s t h
  cases step_effect h with
  | host ts h =>
    have he := hostStep_next h
    exact ⟨congrArg List.length he.slots_eq, he.capBytes_eq⟩
  | engine ts hn h =>
    obtain ⟨i, he⟩ := engineStep_effect h
    exact ⟨he.nbuf_eq, he.capBytes_eq⟩
  | passed ts => exact ⟨rfl, rfl⟩
  | reset => exact ⟨List.length_replicate, rfl⟩

/-- Settles O48: the host leaves the slots, and of a completion's ways to end only the write changes one. -/
theorem onlyMutatingCommandsChangeSlots : Obligations.OnlyMutatingCommandsChangeSlots := by
  intro s t h hne
  cases step_effect h with
  | host ts h => exact absurd (hostStep_next h).slots_eq hne
  | engine ts hn h =>
    obtain ⟨hbusy, hturn⟩ := hn
    rcases engineStep_cases h with rfl | ⟨i, hi, he⟩
    · exact absurd rfl hne
    · exact .inr ⟨hbusy, hturn, i, hi, (exec_next he).slots_change hne⟩
  | passed ts => exact absurd rfl hne
  | reset ts hsch => exact .inl ⟨ts, hsch⟩

theorem engineStep_busy (h : engineStep s = .next t) : t.status.busy = false := (engineStep_effect h).elim fun _ he => he.busy_eq

/-- A step that leaves BUSY = 1 is the host's or a passed turn, as a completion and reset clear BUSY. -/
theorem step_stays_busy (h : step s = .next t) (ht : t.status.busy = true) :
    ∃ ts, hostStep { s with schedule := ts } = .next t ∨ t = { s with schedule := ts } := by
  cases step_effect h with
  | host ts h => exact ⟨ts, .inl h⟩
  | engine ts hn h => rw [engineStep_busy h] at ht; cases ht
  | passed ts => exact ⟨ts, .inr rfl⟩
  | reset => cases ht

/-- Settles O50: while BUSY = 1 only the host can step, and it writes the latch at issue only. -/
theorem pendingLatchIsHeld : Obligations.PendingLatchIsHeld := by
  intro s t h hs ht
  obtain ⟨ts, h | rfl⟩ := step_stays_busy h ht
  · exact (hostStep_next h).latch_eq hs
  · exact ⟨rfl, rfl⟩

/-- Settles O51: the host changes neither ECODE nor RESULT, and BUSY rises by none but the host. -/
theorem statusChangesOnlyAsStated : Obligations.StatusChangesOnlyAsStated := by
  intro s t h
  constructor
  · intro hne
    cases step_effect h with
    | host ts h =>
      have he := hostStep_next h
      exact hne.elim (absurd he.ecode_eq) (absurd he.result_eq)
    | engine ts hn h =>
      obtain ⟨hbusy, hturn⟩ := hn
      exact .inr ⟨hbusy, engineStep_busy h, hturn⟩
    | passed ts => exact hne.elim (absurd rfl) (absurd rfl)
    | reset ts hsch => exact .inl ⟨ts, hsch⟩
  · intro hs ht
    obtain ⟨ts, h | rfl⟩ := step_stays_busy h ht
    · exact hostStep_issues (s := { s with schedule := ts }) h hs ht
    · exact absurd (hs.symm.trans ht) (by decide)

end Sys2Proof.Machine
end

section
/-! SUPPORT. The host port (10_state.md R30-R36): what a turn of the host does with each register (O14 to O20). -/

namespace Sys2Proof.Machine

/-- Settles O14: an accepted CMD write. -/
theorem cmdWriteIdleIssues : Obligations.CmdWriteIdleIssues := by
  intro s ts w rest h hp hb
  exact (step_host_wr h hp (r := .cmd) rfl).trans (congrArg Host.Outcome.next (writeCmd_idle w hb))

/-- Settles O15: a dropped CMD write. -/
theorem cmdWriteBusySetsOvr : Obligations.CmdWriteBusySetsOvr := by
  intro s ts w rest h hp hb
  exact (step_host_wr h hp (r := .cmd) rfl).trans (congrArg Host.Outcome.next (writeCmd_busy w hb))

/-- Settles O16: offset 0x04 is OPERAND, whatever BUSY is. -/
theorem operandWriteSetsOperand : Obligations.OperandWriteSetsOperand :=
  fun _ _ _ _ h hp => step_host_wr h hp (r := .operand) rfl

theorem statusWrite_eq (t : Status) (w : Word) : t.hostWrite w = { t with ovr := if w.getLsbD 8 then false else t.ovr } := by
  unfold Status.hostWrite
  split <;> rfl

/-- Settles O17: STATUS has one bit a host can clear. -/
theorem statusWriteClearsOvr : Obligations.StatusWriteClearsOvr := by
  intro s ts w rest h hp
  rw [step_host_wr h hp (r := .status) rfl, hostWrite, statusWrite_eq]

/-- Settles O18: none of the four kinds of register takes a write. -/
theorem readOnlyWritesIgnored : Obligations.ReadOnlyWritesIgnored := by
  intro s ts off w rest h hp hoff
  rcases hoff with rfl | rfl | rfl | ⟨hlo, hhi, h4⟩
  · exact step_host_wr h hp (r := .result) rfl
  · exact step_host_wr h hp (r := .nbufReg) rfl
  · exact step_host_wr h hp (r := .capBytesReg) rfl
  · exact step_host_wr h hp (r := .reserved) (by rw [hostReg?_word h4 hhi, regAt_reserved hlo])

/-- Settles O20: such an access names no register. -/
theorem otherAccessesRefused : Obligations.OtherAccessesRefused := by
  intro s ts a rest h ha
  exact ⟨fun w hp => step_host_wr_refused h hp (hostReg?_illegal ha), fun n hp => step_host_rd_refused h hp (hostReg?_illegal ha)⟩

/-- The STATUS word as a number: the three fields do not overlap (10_state.md R28, R33). -/
theorem status_toWord_eq (t : Status) :
    t.toWord = BitVec.ofNat 32 (256 * t.ovr.toNat + 16 * t.ecode.toNat + t.busy.toNat) := by
  have hbusy : (BitVec.ofNat 32 t.busy.toNat).toNat = t.busy.toNat := by cases t.busy <;> rfl
  have hb := Bool.toNat_le t.busy
  have ho := Bool.toNat_le t.ovr
  have he := t.ecode.isLt
  have hlow := toNat_or_shift (x := BitVec.ofNat 32 t.busy.toNat) (k := 4) (f := t.ecode.toNat) (by omega) (by omega)
  have hall := toNat_or_shift (x := BitVec.ofNat 32 t.busy.toNat ||| (BitVec.ofNat 32 t.ecode.toNat <<< 4)) (k := 8)
    (f := t.ovr.toNat) (by omega) (by omega)
  apply BitVec.eq_of_toNat_eq
  rw [Status.toWord, BitVec.or_assoc, BitVec.or_comm, BitVec.or_comm (BitVec.setWidth 32 t.ecode <<< 4), ← BitVec.ofNat_toNat,
    hall, hlow, hbusy, BitVec.toNat_ofNat]
  omega

/-- A read, offset by offset (10_state.md R27, R33). -/
theorem hostRead_regAt (off : Nat) (s : State) :
    hostRead (regAt off) s =
      if off = 0x04 then s.operand else if off = 0x08 then s.result
      else if off = 0x0C then BitVec.ofNat 32 (256 * s.status.ovr.toNat + 16 * s.status.ecode.toNat + s.status.busy.toNat)
      else if off = 0x10 then BitVec.ofNat 32 s.slots.length
      else if off = 0x14 then BitVec.ofNat 32 s.capBytes else 0 := by
  unfold regAt
  split
  case h_4 => exact status_toWord_eq s.status
  case h_7 _ h4 h8 hc h10 h14 => simp_all [hostRead]
  all_goals rfl

/-- Settles O19: a read is the host's own storage written with the register; with BUSY = 1 left, only the host has moved. -/
theorem hostReadsReturnRegisters : Obligations.HostReadsReturnRegisters := by
  constructor
  · intro s ts off n rest h hp h4 hle
    rw [step_host_rd h hp (hostReg?_word h4 hle), hostRead_regAt]
  · intro s t h ht
    obtain ⟨ts, h | rfl⟩ := step_stays_busy h ht
    · exact ⟨(hostStep_next h).result_eq, (hostStep_next h).ecode_eq⟩
    · exact ⟨rfl, rfl⟩

end Sys2Proof.Machine
end

section
/-! SUPPORT. The address decoder (O7, O8) and the storage primitives on any slot (O9): a masked byte, MemRead after MemWrite, Grow
and PutBit, each said once. -/

namespace Sys2Proof.Machine

variable {cap i : Nat} {b b' : Slot} {p : Word} {v : Byte}

/-! The address decoder (20_memory.md R52, R53). -/

/-- Counting the bit number from either end of a byte gives the same mask. -/
theorem one_shiftLeft_eq_msb_shiftRight : ∀ k < 8, 1#8 <<< (7 - k) = 0x80#8 >>> k := by decide

/-- Settles O7: the shift in numbers, and the mask counted from the other end of the byte. -/
theorem addressDecoder : Obligations.AddressDecoder := by
  intro p
  have hmask : bitMask p = 1#8 <<< (7 - p.toNat % 8) := by rw [bitMask, bitShift_eq]
  exact ⟨byteIndex_eq p, bitShift_eq p, hmask, hmask.trans (one_shiftLeft_eq_msb_shiftRight _ (Nat.mod_lt _ (by decide)))⟩

/-- Settles O8: a position is below `2 ^ 32`, and the one bit of its mask is its shift. -/
theorem addressDecoderRange : Obligations.AddressDecoderRange := by
  intro p
  refine ⟨?_, bitShift p, ⟨bitShift_lt p, ?_⟩, ?_⟩
  · have := p.isLt
    rw [byteIndex_eq]; omega
  · simp [getLsbD_bitMask p _ (bitShift_lt p)]
  · rintro j ⟨hj, hset⟩
    simpa [getLsbD_bitMask p j hj] using hset

/-! MemRead and MemWrite (20_memory.md R51). -/

/-- MemRead looks at nothing but whether the byte is present and what the list holds there. -/
theorem memRead_congr (hlen : b'.byteLen.toNat ≤ i ↔ b.byteLen.toNat ≤ i) (hr : cellRead b'.storage i = cellRead b.storage i) :
    memRead cap b' i = memRead cap b i := by
  simp only [memRead, hlen, hr]

theorem memRead_of_cell (hcap : i < cap) (hlen : i < b.byteLen.toNat) (hr : cellRead b.storage i = some v) :
    memRead cap b i = .ok v := by
  rw [memRead, if_neg (by omega), if_neg (by omega), hr]

/-- A byte that MemRead gives lies inside the capacity and is present. -/
theorem memRead_bounds (h : memRead cap b i = .ok v) : i < cap ∧ i < b.byteLen.toNat := by
  unfold memRead at h
  split at h
  · cases h
  · split at h
    · cases h
    · omega

/-- Settles O9: the cell list reads what was written, at its own key only; outside the capacity both primitives stop. -/
theorem memWriteThenRead : Obligations.MemWriteThenRead := by
  intro cap b i v hwf
  refine ⟨fun hi => ⟨_, memWrite_ok hi b v, cellsWf_cellWrite hwf i v, rfl, rfl, fun hlen => ?_, fun j hj => ?_⟩,
    fun hi => ⟨if_pos hi, if_pos hi⟩⟩
  · exact memRead_of_cell hi hlen (cellRead_cellWrite_same _ i v)
  · exact memRead_congr Iff.rfl (cellRead_cellWrite_ne _ v hj)

/-! Grow (20_memory.md R54). -/

theorem grow_present (h : byteIndex p < b.byteLen.toNat) : grow cap b p = .ok b := if_neg (by omega)

theorem grow_absent (h : b.byteLen.toNat ≤ byteIndex p) (hroom : b.byteLen.toNat < cap) :
    grow cap b p = .ok { b with storage := cellWrite b.storage b.byteLen.toNat 0, byteLen := b.byteLen + 1 } := by
  rw [grow, if_pos h, memWrite_ok hroom]

/-- At the append position Grow adds a byte exactly when the position starts a byte that is not the placeholder byte of an empty
slot. -/
theorem Slot.Inv.append_byte_absent_iff (h : b.Inv cap) :
    b.byteLen.toNat ≤ byteIndex b.bitCount ↔ b.bitCount.toNat % 8 = 0 ∧ 8 ≤ b.bitCount.toNat := by
  have := h.len_eq
  rw [byteIndex_eq]; omega

/-- Settles O10: the two branches of Grow, and which of them the append position takes, in numbers. -/
theorem growAddsOneZeroByte : Obligations.GrowAddsOneZeroByte := by
  intro cap b p _ hcap h
  refine ⟨grow_present, fun habs hroom => ?_, ?_⟩
  · have hlen : (b.byteLen + 1).toNat = b.byteLen.toNat + 1 := toNat_succ (by omega)
    refine ⟨_, grow_absent habs hroom, rfl, hlen, ?_, fun i hi => ?_⟩
    · exact memRead_of_cell hroom (by simp only [hlen]; omega) (cellRead_cellWrite_same _ _ _)
    · exact memRead_congr (by simp only [hlen]; omega) (cellRead_cellWrite_ne _ _ hi)
  · rintro rfl hroom
    have hlen := h.len_eq
    refine ⟨?_, h.append_byte_absent_iff, ?_⟩ <;> rw [byteIndex_eq] <;> omega

/-! PutBit (20_memory.md R55) and GetBit (R56). -/

/-- What PutBit does when it answers a slot: grow, a masked write, a count. -/
theorem putBit_cases {u : Bool} (h : putBit cap b u = .ok b') :
    ∃ g old, grow cap b b.bitCount = .ok g ∧ memRead cap g (byteIndex b.bitCount) = .ok old ∧
      b' = { g with storage := cellWrite g.storage (byteIndex b.bitCount) (setMasked old (bitMask b.bitCount) u),
                    bitCount := b.bitCount + 1 } := by
  unfold putBit at h
  split at h
  · cases h
  case h_2 g hg =>
    split at h
    · cases h
    case h_2 old hold =>
      rw [memWrite_ok (memRead_bounds hold).1] at h
      cases h
      exact ⟨g, old, hg, hold, rfl⟩

/-- GetBit of a 32-bit position gives the stored bit (R56). -/
theorem getBit_of_storedBit {u : Bool} (h : b.Inv cap) (hc : CapOk cap) (hp : p.toNat < 8 * b.byteLen.toNat)
    (hu : storedBit b.storage p.toNat = some u) : getBit cap b p = .ok u := by
  have hg := getBit_eq_of_bit h hc hp hu
  rwa [BitVec.ofNat_toNat, BitVec.setWidth_eq] at hg

/-- An append leaves GetBit of every earlier position (R55). -/
theorem Appended.getBit_old {vs : List Bool} (h : b.Inv cap) (hc : CapOk cap) (ha : Appended cap b vs b')
    (hp : p.toNat < b.bitCount.toNat) : getBit cap b' p = getBit cap b p := by
  have hle := h.count_le
  have hle' := ha.inv.count_le
  have hcount := ha.count
  obtain ⟨u, hu⟩ := h.bit_some (p := p.toNat) (by omega)
  rw [getBit_of_storedBit h hc (by omega) hu, getBit_of_storedBit ha.inv hc (by omega) ((ha.old _ hp).trans hu)]

/-- Settles O11: PutBit's three parts, over its effect on the stored bits. -/
theorem putBitAppendsOneBit : Obligations.PutBitAppendsOneBit := by
  intro cap b v hcap hcap' h hroom
  have hc : CapOk cap := ⟨hcap, hcap'⟩
  obtain ⟨b', hput, ha⟩ := putBit_ok h hc hroom v
  obtain ⟨g, old, hgrow, hread, hb'⟩ := putBit_cases hput
  obtain ⟨hi, hlen⟩ := memRead_bounds hread
  have hcount : b'.bitCount.toNat = b.bitCount.toNat + 1 := ha.count
  have hnew : storedBit b'.storage b.bitCount.toNat = some v := ha.new 0 Nat.one_pos
  refine ⟨b', g, old, hput, hgrow, hread, ?_, hcount, by rw [hb'], ?_, fun p hp => ha.getBit_old h hc hp, fun i hne => ?_⟩
  · rw [hb']
    exact memRead_of_cell hi hlen (cellRead_cellWrite_same _ _ _)
  · have := ha.inv.count_le
    exact getBit_of_storedBit ha.inv hc (by omega) hnew
  · refine ha.memRead_frame h fun j hj => ?_
    obtain rfl : j = 0 := by simpa using hj
    rw [byteIndex_eq] at hne
    exact hne.symm

/-- Settles O12: the byte of a position below BITCOUNT is present. -/
theorem getBitReadsMaskedByte : Obligations.GetBitReadsMaskedByte := by
  intro cap b p hcap hcap' h hp
  have hpresent : byteIndex p < b.byteLen.toNat := by
    have := h.count_le
    rw [byteIndex_eq]; omega
  obtain ⟨v, -, hread⟩ := memRead_present h ⟨hcap, hcap'⟩ hpresent
  exact ⟨v, hread, by simp only [getBit, hread, bne, beq_eq_decide, ne_eq, decide_not]⟩

end Sys2Proof.Machine
end

section
/-! SUPPORT. RDBYTE against GetBit (O38), and what a command changes besides its slot (O47). -/

namespace Sys2Proof.Machine

/-- A number modulo `2 ^ w` is the sum of its low bits, each at its place, the most significant first. -/
theorem sum_testBit_shiftLeft (w x : Nat) :
    ∑ k ∈ Finset.range w, (x.testBit (w - 1 - k)).toNat <<< (w - 1 - k) = x % 2 ^ w := by
  rw [Finset.sum_range_reflect (fun k => (x.testBit k).toNat <<< k)]
  induction w with
  | zero => simp [Nat.mod_one]
  | succ w ih => rw [Finset.sum_range_succ, ih, Nat.mod_pow_succ, Nat.shiftLeft_eq, Nat.toNat_testBit, Nat.mul_comm]

/-- The eight stream bits of a byte, first bit most significant (10_state.md R25). -/
theorem storedBit_of_byte {m : Memory} {i k : Nat} {v : Byte} (hv : cellRead m i = some v) (hk : k < 8) :
    storedBit m (8 * i + k) = some (v.getLsbD (7 - k)) := by
  rw [storedBit, show (8 * i + k) / 8 = i by omega, show (8 * i + k) % 8 = k by omega, hv]; rfl

/-- Settles O38: the byte read is the sum of its bits, each is what GetBit reads, and INV3 has the bits past BITCOUNT at 0. -/
theorem rdbyteSumsGetBits : Obligations.RdbyteSumsGetBits := by
  intro s d b hs hb hi
  have h := hs.slot hb
  obtain ⟨-, -, -, hzero⟩ := id h
  have hlen : s.pendOp.toNat < b.byteLen.toNat := by have := h.len_eq; omega
  obtain ⟨v, hv, hread⟩ := memRead_present h hs.capOk hlen
  have hsum : ∑ k ∈ Finset.range 8, (v.getLsbD (7 - k)).toNat <<< (7 - k) = v.toNat :=
    (sum_testBit_shiftLeft 8 v.toNat).trans (Nat.mod_eq_of_lt v.isLt)
  refine ⟨fun k => v.getLsbD (7 - k), fun k hk => ?_, fun k hk hpast => ?_, ?_⟩
  · exact getBit_eq_of_bit h hs.capOk (by omega) (storedBit_of_byte hv hk)
  · exact Option.some.inj ((storedBit_of_byte hv hk).symm.trans (hzero _ (by omega) hpast))
  · rw [hsum, BitVec.ofNat_toNat]
    exact exec_rdbyte_ok hb hi hread

/-- Settles O47: of the four ways a command ends, an inspecting command's are the error and the result, and only the result, which
is a success, writes RESULT. -/
theorem inspectingCommandsChangeNoSlot : Obligations.InspectingCommandsChangeNoSlot := by
  intro i s t h
  cases exec_next h with
  | error e he => exact ⟨fun _ => rfl, fun _ => rfl⟩
  | result r hi => exact ⟨fun _ => rfl, fun hor => hor.elim (fun hno => absurd (hi.symm.trans hno) (by decide)) (absurd rfl)⟩
  | plain hi => exact ⟨fun hins => absurd (hi.symm.trans hins) (by decide), fun _ => rfl⟩
  | write b hi hb => exact ⟨fun hins => absurd (hi.symm.trans hins) (by decide), fun _ => rfl⟩

end Sys2Proof.Machine
end

section
/-! SUPPORT. The decoder table row by row (30_encoding.md R73): what a row tests, field by field; a word's OP picks the one row it
can match (O3), so decoding is the choice of that row. -/

namespace Sys2Proof

variable {w : Word} {r q : Row} {k : Nat} {i : Instr} {rs : List Row}

/-! The four masks of R73 in fields: the row's OP, and 0 in every field its command does not use. -/

theorem selects_D_fields (w : Word) {op : Nat} (ho : op < 16) :
    w &&& 0xFFFFFF0F = BitVec.ofNat 32 op ↔
      fieldOp w = op ∧ fieldS w = 0 ∧ fieldB w = false ∧ fieldW w = 0 ∧ fieldRsv w = 0 := by
  rw [selects_D w ho, fieldOp_eq, fieldS_eq, fieldB_eq, fieldW_eq, fieldRsv_eq, decide_eq_false_iff_not]
  omega

theorem selects_DB_fields (w : Word) {op : Nat} (ho : op < 16) :
    w &&& 0xFFFFEF0F = BitVec.ofNat 32 op ↔ fieldOp w = op ∧ fieldS w = 0 ∧ fieldW w = 0 ∧ fieldRsv w = 0 := by
  rw [selects_DB w ho, fieldOp_eq, fieldS_eq, fieldW_eq, fieldRsv_eq]
  omega

theorem selects_DW_fields (w : Word) {op : Nat} (ho : op < 16) :
    w &&& 0xFFF81F0F = BitVec.ofNat 32 op ↔ fieldOp w = op ∧ fieldS w = 0 ∧ fieldB w = false ∧ fieldRsv w = 0 := by
  rw [selects_DW w ho, fieldOp_eq, fieldS_eq, fieldB_eq, fieldRsv_eq, decide_eq_false_iff_not]
  omega

theorem selects_DS_fields (w : Word) {op : Nat} (ho : op < 16) :
    w &&& 0xFFFFF00F = BitVec.ofNat 32 op ↔ fieldOp w = op ∧ fieldB w = false ∧ fieldW w = 0 ∧ fieldRsv w = 0 := by
  rw [selects_DS w ho, fieldOp_eq, fieldB_eq, fieldW_eq, fieldRsv_eq, decide_eq_false_iff_not]
  omega

/-! One row at most. -/

/-- Every row's mask covers OP, and the row at index `k` asks for OP = k + 1. -/
theorem row_tests_op : ∀ k (hk : k < rows.length),
    rows[k].mask &&& 0xF = 0xF ∧ rows[k].value &&& 0xF = BitVec.ofNat 32 (k + 1) := by
  decide

theorem fieldOp_of_selects (hr : rows[k]? = some r) (h : r.selects w) : fieldOp w = k + 1 := by
  obtain ⟨hk, rfl⟩ := List.getElem?_eq_some_iff.1 hr
  obtain ⟨hmask, hvalue⟩ := row_tests_op k hk
  have hop : w &&& 0xF = BitVec.ofNat 32 (k + 1) := by rw [← hmask, ← BitVec.and_assoc, h, hvalue]
  have hlt : k < 10 := hk
  rw [fieldOp, hop, BitVec.toNat_ofNat, Nat.mod_eq_of_lt (by omega)]

/-- Settles O3: a row a word selects stands at index OP - 1. -/
theorem wordSelectsAtMostOneRow : Obligations.WordSelectsAtMostOneRow := by
  intro w j k r q hr hq hrw hqw
  have hj := fieldOp_of_selects hr hrw
  have hk := fieldOp_of_selects hq hqw
  omega

theorem selected_unique (hr : r ∈ rows) (hq : q ∈ rows) (hrw : r.selects w) (hqw : q.selects w) : q = r := by
  obtain ⟨j, hj⟩ := List.mem_iff_getElem?.1 hr
  obtain ⟨k, hk⟩ := List.mem_iff_getElem?.1 hq
  obtain rfl := wordSelectsAtMostOneRow w j k r q hj hk hrw hqw
  exact Option.some.inj (hk.symm.trans hj)

/-! The loop of DecodeCmd (R74). -/

theorem decodeIn_command (h : decodeIn w rs = .command i) : ∃ r ∈ rs, r.selects w ∧ r.read w = i := by
  induction rs with
  | nil => cases h
  | cons r rs ih =>
    rw [decodeIn] at h
    split at h
    case isTrue hr => exact ⟨r, List.mem_cons_self, hr, Decoded.command.inj h⟩
    case isFalse =>
      obtain ⟨q, hq, hsel⟩ := ih h
      exact ⟨q, List.mem_cons_of_mem r hq, hsel⟩

theorem decodeIn_illegal {why : Illegal} (h : decodeIn w rs = .illegal why) : ∀ r ∈ rs, ¬ r.selects w := by
  induction rs with
  | nil => exact fun _ hr => absurd hr List.not_mem_nil
  | cons r rs ih =>
    rw [decodeIn] at h
    split at h
    case isTrue => cases h
    case isFalse hr => exact List.forall_mem_cons.2 ⟨hr, ih h⟩

theorem decodeCmd_of_selects (hr : r ∈ rows) (h : r.selects w) : decodeCmd w = .command (r.read w) := by
  cases hd : decodeCmd w with
  | illegal why => exact absurd h (decodeIn_illegal hd r hr)
  | command i =>
    obtain ⟨q, hq, hqw, rfl⟩ := decodeIn_command hd
    rw [selected_unique hr hq h hqw]

theorem decodeCmd_of_row (k : Nat) (hr : rows[k]? = some r) (h : r.selects w) (hread : r.read w = i) : decodeCmd w = .command i :=
  hread ▸ decodeCmd_of_selects (List.mem_of_getElem? hr) h

theorem decodeCmd_illegal_iff : (∃ why, decodeCmd w = .illegal why) ↔ ¬ ∃ r ∈ rows, r.selects w := by
  constructor
  · rintro ⟨why, h⟩ ⟨r, hr, hrw⟩
    exact decodeIn_illegal h r hr hrw
  · intro h
    cases hd : decodeCmd w with
    | illegal why => exact ⟨why, rfl⟩
    | command i =>
      obtain ⟨r, hr, hrw, -⟩ := decodeIn_command hd
      exact absurd ⟨r, hr, hrw⟩ h

/-- The legal words, opcode by opcode: RSV and the fields the command does not use are 0 (30_encoding.md R70-R75). -/
theorem exists_row_iff : (∃ r ∈ rows, r.selects w) ↔ fieldRsv w = 0 ∧
    ((fieldOp w ∈ [0x1, 0x5, 0x6, 0x7, 0xA] ∧ fieldS w = 0 ∧ fieldB w = false ∧ fieldW w = 0) ∨
    (fieldOp w ∈ [0x2, 0x3] ∧ fieldS w = 0 ∧ fieldW w = 0) ∨
    (fieldOp w = 0x4 ∧ fieldS w = 0 ∧ fieldB w = false) ∨
    (fieldOp w ∈ [0x8, 0x9] ∧ fieldB w = false ∧ fieldW w = 0)) := by
  simp only [rows, List.exists_mem_cons_iff, List.not_mem_nil, false_and, exists_false, or_false]
  refine Iff.trans (or_congr (selects_D_fields w (op := 0x1) (by decide)) <|
    or_congr (selects_DB_fields w (op := 0x2) (by decide)) <|
    or_congr (selects_DB_fields w (op := 0x3) (by decide)) <| or_congr (selects_DW_fields w (op := 0x4) (by decide)) <|
    or_congr (selects_D_fields w (op := 0x5) (by decide)) <| or_congr (selects_D_fields w (op := 0x6) (by decide)) <|
    or_congr (selects_D_fields w (op := 0x7) (by decide)) <| or_congr (selects_DS_fields w (op := 0x8) (by decide)) <|
    or_congr (selects_DS_fields w (op := 0x9) (by decide)) (selects_D_fields w (op := 0xA) (by decide))) ?_
  simp only [List.mem_cons, List.not_mem_nil, or_false]
  cases fieldB w <;> simp only [Bool.true_eq_false, true_and, and_true, false_and, and_false, or_false, false_or] <;> omega

end Sys2Proof
end

section
/-! SUPPORT. Encoding (30_encoding.md R78) undoes and is undone by decoding (O1, O2). -/

namespace Sys2Proof

/-! The fields of an encoded word. -/

section
variable {op d s w : Nat} (b : Bool) (ho : op < 16) (hd : d < 16) (hs : s < 16) (hw : w < 64)
include ho hd hs hw

@[simp] theorem fieldD_encodeFields : fieldD (encodeFields op d s b w) = d := by
  have := Bool.toNat_le b
  rw [fieldD_eq, toNat_encodeFields b ho hd hs hw]
  omega

@[simp] theorem fieldS_encodeFields : fieldS (encodeFields op d s b w) = s := by
  have := Bool.toNat_le b
  rw [fieldS_eq, toNat_encodeFields b ho hd hs hw]
  omega

@[simp] theorem fieldB_encodeFields : fieldB (encodeFields op d s b w) = b := by
  rw [fieldB_eq, toNat_encodeFields b ho hd hs hw]
  cases b <;> simp only [Bool.toNat_false, Bool.toNat_true, decide_eq_true_eq, decide_eq_false_iff_not] <;> omega

@[simp] theorem fieldW_encodeFields : fieldW (encodeFields op d s b w) = w := by
  have := Bool.toNat_le b
  rw [fieldW_eq, toNat_encodeFields b ho hd hs hw]
  omega

end

/-- A well-formed command's word selects its row, and the row reads the command's operands back. -/
theorem decodeCmd_encode {i : Instr} (h : WellFormed i) : decodeCmd (encode i) = .command i := by
  have hfits : i.wellFormed = true := h
  cases i <;> simp only [Instr.wellFormed, Bool.and_eq_true, decide_eq_true_eq] at hfits
  case init d => exact decodeCmd_of_row 0 rfl (Laws.RowMatch.init d h) (by simp [encode, hfits])
  case appbit d v => exact decodeCmd_of_row 1 rfl (Laws.RowMatch.appbit d v h) (by simp [encode, hfits])
  case apprun d v => exact decodeCmd_of_row 2 rfl (Laws.RowMatch.apprun d v h) (by simp [encode, hfits])
  case appint d w => exact decodeCmd_of_row 3 rfl (Laws.RowMatch.appint d w h) (by simp [encode, hfits])
  case rdbit d => exact decodeCmd_of_row 4 rfl (Laws.RowMatch.rdbit d h) (by simp [encode, hfits])
  case tobytes d => exact decodeCmd_of_row 5 rfl (Laws.RowMatch.tobytes d h) (by simp [encode, hfits])
  case rdbyte d => exact decodeCmd_of_row 6 rfl (Laws.RowMatch.rdbyte d h) (by simp [encode, hfits])
  case clone d s => exact decodeCmd_of_row 7 rfl (Laws.RowMatch.clone d s h) (by simp [encode, hfits])
  case concat d s => exact decodeCmd_of_row 8 rfl (Laws.RowMatch.concat d s h) (by simp [encode, hfits])
  case len d => exact decodeCmd_of_row 9 rfl (Laws.RowMatch.len d h) (by simp [encode, hfits])

/-- Settles O1: the cases are the rows of the table. -/
theorem decodeOfEncode : Obligations.DecodeOfEncode := fun _ => decodeCmd_encode

theorem wellFormed_appint_iff {d n : Nat} : WellFormed (.appint d n) ↔ d < 16 ∧ n < 64 := by
  rw [WellFormed, Instr.wellFormed, Bool.and_eq_true, decide_eq_true_eq, decide_eq_true_eq]

/-! A word made again from what a row reads. -/

theorem fieldD_lt (w : Word) : fieldD w < 16 := by rw [fieldD_eq]; omega
theorem fieldS_lt (w : Word) : fieldS w < 16 := by rw [fieldS_eq]; omega
theorem fieldW_lt (w : Word) : fieldW w < 64 := by rw [fieldW_eq]; omega

/-- A word is made of its fields. -/
theorem encodeFields_fields {w : Word} (h : fieldRsv w = 0) :
    encodeFields (fieldOp w) (fieldD w) (fieldS w) (fieldB w) (fieldW w) = w := by
  have hop : fieldOp w < 16 := by rw [fieldOp_eq]; omega
  have hb : (fieldB w).toNat = w.toNat / 4096 % 2 := by
    rw [fieldB_eq]
    rcases Nat.mod_two_eq_zero_or_one (w.toNat / 4096) with e | e <;> rw [e] <;> rfl
  apply BitVec.eq_of_toNat_eq
  rw [toNat_encodeFields _ hop (fieldD_lt w) (fieldS_lt w) (fieldW_lt w), hb, fieldOp_eq, fieldD_eq, fieldS_eq, fieldW_eq]
  rw [fieldRsv_eq] at h
  omega

theorem encodeFields_of_D {w : Word} (op : Nat) (ho : op < 16) (h : w &&& 0xFFFFFF0F = BitVec.ofNat 32 op) :
    encodeFields op (fieldD w) 0 false 0 = w := by
  obtain ⟨hop, hs, hb, hw, hrsv⟩ := (selects_D_fields w ho).1 h
  simpa only [hop, hs, hb, hw] using encodeFields_fields hrsv

theorem encodeFields_of_DB {w : Word} (op : Nat) (ho : op < 16) (h : w &&& 0xFFFFEF0F = BitVec.ofNat 32 op) :
    encodeFields op (fieldD w) 0 (fieldB w) 0 = w := by
  obtain ⟨hop, hs, hw, hrsv⟩ := (selects_DB_fields w ho).1 h
  simpa only [hop, hs, hw] using encodeFields_fields hrsv

theorem encodeFields_of_DW {w : Word} (op : Nat) (ho : op < 16) (h : w &&& 0xFFF81F0F = BitVec.ofNat 32 op) :
    encodeFields op (fieldD w) 0 false (fieldW w) = w := by
  obtain ⟨hop, hs, hb, hrsv⟩ := (selects_DW_fields w ho).1 h
  simpa only [hop, hs, hb] using encodeFields_fields hrsv

theorem encodeFields_of_DS {w : Word} (op : Nat) (ho : op < 16) (h : w &&& 0xFFFFF00F = BitVec.ofNat 32 op) :
    encodeFields op (fieldD w) (fieldS w) false 0 = w := by
  obtain ⟨hop, hb, hw, hrsv⟩ := (selects_DS_fields w ho).1 h
  simpa only [hop, hb, hw] using encodeFields_fields hrsv

theorem encode_read {w : Word} : ∀ r ∈ rows, r.selects w → encode (r.read w) = w := by
  simp only [rows, List.forall_mem_cons]
  exact ⟨encodeFields_of_D 0x1 (by decide), encodeFields_of_DB 0x2 (by decide), encodeFields_of_DB 0x3 (by decide),
    encodeFields_of_DW 0x4 (by decide), encodeFields_of_D 0x5 (by decide), encodeFields_of_D 0x6 (by decide),
    encodeFields_of_D 0x7 (by decide), encodeFields_of_DS 0x8 (by decide), encodeFields_of_DS 0x9 (by decide),
    encodeFields_of_D 0xA (by decide), List.forall_mem_nil _⟩

theorem wellFormed_read (w : Word) : ∀ r ∈ rows, WellFormed (r.read w) := by
  simp [rows, WellFormed, Instr.wellFormed, fieldD_lt, fieldS_lt, fieldW_lt]

/-- Settles O2: the word selects a row, and its other bits are 0 or what the row reads. -/
theorem encodeOfDecode : Obligations.EncodeOfDecode := by
  intro w i h
  obtain ⟨r, hr, hsel, rfl⟩ := decodeIn_command h
  exact ⟨wellFormed_read w r hr, encode_read r hr hsel⟩

/-- Settles O6: fourteen closed words, decoded by evaluation. -/
theorem writtenWordsDecode : Obligations.WrittenWordsDecode := by
  unfold Obligations.WrittenWordsDecode
  decide

end Sys2Proof
end

section
/-! SUPPORT. Illegal words (O4), wide fields (O5), and the host's side of a command: WAIT (O22) and EXEC.I (O54). -/

namespace Sys2Proof.Machine

variable {P : Slot → Prop} {i : Instr} {s t : State} {w : Word} {ts : List Turn} {rest : List HostOp}

theorem step_engine_busy (hsch : s.schedule = .engine :: ts) (hb : s.status.busy = true) :
    step s = engineStep { s with schedule := ts } := (step_engine hsch).trans (if_pos hb)

theorem engineStep_command (h : decodeCmd s.pendCmd = .command i) : engineStep s = exec i s := by rw [engineStep, h]

theorem engineStep_illegal {why : Illegal} (h : decodeCmd s.pendCmd = .illegal why) :
    engineStep s = .next (raised .illegal s) := by
  rw [engineStep, h]; rfl

/-- Settles O4: a word is illegal when it selects no row, and the engine then raises ILLEGAL. -/
theorem illegalWordsCompleteWithIllegal : Obligations.IllegalWordsCompleteWithIllegal := by
  constructor
  · intro w
    rw [decodeCmd_illegal_iff, exists_row_iff]
    simp only [List.mem_cons, List.not_mem_nil, or_false]
    cases fieldB w <;> simp only [Bool.true_eq_false, Bool.false_eq_true, true_and, and_true, false_and, and_false, or_false,
      false_or, true_or, or_true] <;> omega
  · intro s ts why hsch hbusy hdec
    exact (step_engine_busy hsch hbusy).trans (engineStep_illegal hdec)

/-- Settles O5: W holds every width to 63, and APPINT tests the width first. -/
theorem wideAppintIsWidthInvalid : Obligations.WideAppintIsWidthInvalid := by
  intro d w hd hw
  constructor
  · exact decodeCmd_encode (wellFormed_appint_iff.2 ⟨hd, by omega⟩)
  · intro hwide s hslot
    obtain ⟨b, hb⟩ := exists_slot hslot
    exact exec_appint_wide hb hwide

/-! The host's WAIT (R79) and the frame of a completion it waits for. -/

theorem hostStep_wait (hp : s.program = .wait :: rest) : hostStep s = .next (if s.status.busy then s else hostNext s rest) := by
  simp only [hostStep, hp]

theorem hostStep_wait_busy (hp : s.program = .wait :: rest) (hb : s.status.busy = true) : hostStep s = .next s := by
  rw [hostStep_wait hp, if_pos hb]

theorem hostStep_wait_idle (hp : s.program = .wait :: rest) (hb : s.status.busy = false) :
    hostStep s = .next { s with program := rest } := by
  rw [hostStep_wait hp, hb]
  rfl

/-- Settles O22: the turn of the host at a WAIT. -/
theorem waitEndsWhenIdle : Obligations.WaitEndsWhenIdle := fun _ _ _ hsch hp =>
  ⟨fun hb => (step_host hsch).trans (hostStep_wait_busy hp hb), fun hb => (step_host hsch).trans (hostStep_wait_idle hp hb)⟩

theorem Effect.program_eq (h : Effect P i s t) : t.program = s.program := by cases h <;> rfl
theorem Effect.schedule_eq (h : Effect P i s t) : t.schedule = s.schedule := by cases h <;> rfl

theorem step_free_wr {a : BusAccess} {r : HostReg} (hsch : s.schedule = []) (hidle : s.status.busy = false)
    (hp : s.program = .wr a w :: rest) (hr : hostReg? a = some r) :
    step s = .next (hostWrite r w { s with program := rest }) := (step_free_idle hsch hidle).trans (hostStep_wr hp hr)

theorem step_free_issue (hsch : s.schedule = []) (hidle : s.status.busy = false) (hp : s.program = .wr atCmd w :: rest) :
    step s = .next { s with program := rest, pendCmd := w, pendOp := s.operand, status := s.status.issue } :=
  (step_free_wr hsch hidle hp (r := .cmd) rfl).trans (congrArg Host.Outcome.next (writeCmd_idle w hidle))

theorem step_free_command (h : exec i s = .next t) (hsch : s.schedule = []) (hb : s.status.busy = true)
    (hdec : decodeCmd s.pendCmd = .command i) : step s = .next t :=
  (step_free_busy hsch hb).trans ((engineStep_command hdec).trans h)

/-- Settles O54: the host writes OPERAND and CMD, the engine completes the decoded command, and the host's WAIT ends. -/
theorem execImmediateRunsCommand : Obligations.ExecImmediateRunsCommand := by
  intro s t i imm rest hwf hsch hidle hp hexec
  have hend := exec_next hexec
  have hoperand := step_free_wr hsch hidle hp (r := .operand) rfl
  have hcmd := step_free_issue (s := { s with operand := imm, program := .wr atCmd (encode i) :: .wait :: rest }) hsch hidle rfl
  have hcomplete := step_free_command hexec hsch rfl (decodeCmd_encode hwf)
  have hwait : step t = .next { t with program := rest } :=
    (step_free_idle (hend.schedule_eq.trans hsch) hend.busy_eq).trans (hostStep_wait_idle hend.program_eq hend.busy_eq)
  exact (run_next 3 hoperand).trans ((run_next 2 hcmd).trans ((run_next 1 hcomplete).trans (run_next 0 hwait)))

end Sys2Proof.Machine
end

section
/-! SUPPORT. Construction (40_construction.md): INIT (O28). -/

namespace Sys2Proof.Machine

/-- Settles O28: INIT's slot operation drops whatever the slot held down to the fresh slot, and the completion writes it back. -/
theorem initMakesFreshSlot : Obligations.InitMakesFreshSlot := by
  intro s d h hd
  obtain ⟨b, hb⟩ := exists_slot hd
  have hfresh : initSlot s.capBytes b = .ok Slot.fresh := initSlot_ok (h.slot hb) h.capOk
  exact exec_init_ok hb hfresh

end Sys2Proof.Machine
end

section
/-! SUPPORT. The pack engine (41_append.md): an append's effect on its slot as GetBit and MemRead see it, what each append command
does on a slot with room, and the obligations O29 to O34. -/

namespace Sys2Proof.Machine

variable {cap d j k w : Nat} {b b' : Slot} {vs : List Bool} {i : Instr} {s t : State} {P : Slot → Prop}

/-! An append as GetBit and MemRead see it. -/

theorem Appended.byteLen_eq (ha : Appended cap b vs b') :
    b'.byteLen.toNat = max 1 ((b.bitCount.toNat + vs.length + 7) / 8) := by rw [ha.inv.len_eq, ha.count]

theorem Appended.byteLen_le (h : b.Inv cap) (ha : Appended cap b vs b') : b.byteLen.toNat ≤ b'.byteLen.toNat := by
  rw [h.len_eq, ha.byteLen_eq]; omega

/-- GetBit of each appended position gives the bit appended there (20_memory.md R55, R56). -/
theorem Appended.getBit_new (hc : CapOk cap) (ha : Appended cap b vs b') (hj : j < vs.length) :
    getBit cap b' (BitVec.ofNat 32 (b.bitCount.toNat + j)) = .ok vs[j] := by
  have hle := ha.inv.count_le
  have hcount := ha.count
  exact getBit_eq_of_bit ha.inv hc (by omega) (ha.new j hj)

/-- The appended positions do not wrap around 32 bits. -/
theorem Appended.byteIndex_new (hc : CapOk cap) (ha : Appended cap b vs b') (hj : j < vs.length) :
    byteIndex (BitVec.ofNat 32 (b.bitCount.toNat + j)) = (b.bitCount.toNat + j) / 8 := by
  have hlt := ha.inv.count_lt hc
  have hcount := ha.count
  rw [byteIndex_eq, BitVec.toNat_ofNat, Nat.mod_eq_of_lt (by omega)]

/-- Every byte that holds no appended position reads as before. -/
theorem Appended.memRead_byteIndex_frame (h : b.Inv cap) (hc : CapOk cap) (ha : Appended cap b vs b') (n : Nat)
    (hn : ∀ j, j < vs.length → byteIndex (BitVec.ofNat 32 (b.bitCount.toNat + j)) ≠ n) :
    memRead cap b' n = memRead cap b n :=
  ha.memRead_frame h fun j hj => ha.byteIndex_new hc hj ▸ hn j hj

/-! The bit field of APPINT (R112, R113). -/

@[simp] theorem length_fieldBits (x : Word) (w : Nat) : (fieldBits x w).length = w := by simp [fieldBits]

@[simp] theorem getElem_fieldBits (x : Word) (hj : j < (fieldBits x w).length) : (fieldBits x w)[j] = x.getLsbD (w - 1 - j) := by
  simp [fieldBits]

theorem bitsToNat_fieldBits (x : Word) (w : Nat) : bitsToNat (fieldBits x w) = x.toNat % 2 ^ w := bitsToNat_testBits w x.toNat

/-- R112 writes a bit of the value as a shift and a mask. -/
theorem shiftRight_and_one_beq (x : Word) (n : Nat) : ((x >>> n &&& 1) == 1) = x.getLsbD n := by
  have hbit : x >>> n &&& 1 = (BitVec.ofBool ((x >>> n).getLsbD 0)).setWidth 32 := BitVec.and_one_eq_setWidth_ofBool_getLsbD
  rw [hbit, BitVec.getLsbD_ushiftRight, Nat.add_zero]
  cases x.getLsbD n <;> rfl

/-! The append commands on a slot that exists. -/

theorem exec_appbit_appends (h : s.Inv) (hb : s.slots[d]? = some b) (hroom : b.bitCount.toNat + 1 ≤ 8 * s.capBytes) (v : Bool) :
    ∃ b', exec (.appbit d v) s = .next (completed (setSlot s d b')) ∧ Appended s.capBytes b [v] b' := by
  obtain ⟨b', e, ha⟩ := putBit_ok (h.slot hb) h.capOk hroom v
  exact ⟨b', exec_appbit_ok hb hroom e, ha⟩

theorem exec_apprun_appends (h : s.Inv) (hb : s.slots[d]? = some b) (hroom : b.bitCount.toNat + s.pendOp.toNat ≤ 8 * s.capBytes)
    (v : Bool) : ∃ b', exec (.apprun d v) s = .next (completed (setSlot s d b')) ∧
      Appended s.capBytes b (List.replicate s.pendOp.toNat v) b' := by
  obtain ⟨b', e, ha⟩ := putBits_ok h.capOk (List.replicate s.pendOp.toNat v) (h.slot hb) (by simpa using hroom)
  exact ⟨b', exec_apprun_ok hb hroom e, ha⟩

theorem exec_appint_appends (h : s.Inv) (hb : s.slots[d]? = some b) (hw : w ≤ 32)
    (hroom : b.bitCount.toNat + w ≤ 8 * s.capBytes) : ∃ b', exec (.appint d w) s = .next (completed (setSlot s d b')) ∧
      Appended s.capBytes b (fieldBits s.pendOp w) b' := by
  obtain ⟨b', e, ha⟩ := putBits_ok h.capOk (fieldBits s.pendOp w) (h.slot hb) (by simpa using hroom)
  exact ⟨b', exec_appint_ok hb hw hroom e, ha⟩

/-- Settles O29: PutBit's effect, with the one new position at BITCOUNT. -/
theorem appbitAppendsBit : Obligations.AppbitAppendsBit := by
  intro s d v b h hb hroom
  have hinv := h.slot hb
  obtain ⟨b', e, ha⟩ := exec_appbit_appends h hb hroom v
  have hnew := ha.getBit_new h.capOk (j := 0) Nat.one_pos
  refine ⟨b', e, ha.count, ha.byteLen_eq, by simpa using hnew, fun p => ha.getBit_old hinv h.capOk, fun n hn => ?_⟩
  refine ha.memRead_byteIndex_frame hinv h.capOk n fun j hj => ?_
  obtain rfl : j = 0 := by simpa using hj
  simpa using hn.symm

/-- Settles O30: the run is the list of n equal bits. -/
theorem apprunAppendsRun : Obligations.ApprunAppendsRun := by
  intro s d v b h hb hroom
  have hinv := h.slot hb
  obtain ⟨b', e, ha⟩ := exec_apprun_appends h hb hroom v
  have hlen : (List.replicate s.pendOp.toNat v).length = s.pendOp.toNat := List.length_replicate
  refine ⟨b', e, hlen ▸ ha.count, hlen ▸ ha.byteLen_eq, fun j hj => ?_, fun p => ha.getBit_old hinv h.capOk, fun n hn => ?_⟩
  · rw [ha.getBit_new h.capOk (hlen.symm ▸ hj), List.getElem_replicate]
  · exact ha.memRead_byteIndex_frame hinv h.capOk n (hlen.symm ▸ hn)

/-- Settles O32: the field is the list of bits w-1 to 0 of PEND_OP. -/
theorem appintAppendsField : Obligations.AppintAppendsField := by
  intro s d w b h hb hw hroom
  have hinv := h.slot hb
  obtain ⟨b', e, ha⟩ := exec_appint_appends h hb hw hroom
  have hlen : (fieldBits s.pendOp w).length = w := length_fieldBits _ _
  refine ⟨b', e, hlen ▸ ha.count, hlen ▸ ha.byteLen_eq, fun j hj => ?_, fun p => ha.getBit_old hinv h.capOk, fun n hn => ?_⟩
  · rw [ha.getBit_new h.capOk (hlen.symm ▸ hj), getElem_fieldBits, shiftRight_and_one_beq, Nat.sub_right_comm]
  · exact ha.memRead_byteIndex_frame hinv h.capOk n (hlen.symm ▸ hn)

/-- Settles O31: the run alone is longer than the largest capacity. -/
theorem hugeRunRaisesCapacity : Obligations.HugeRunRaisesCapacity := by
  intro s d v h hd hop
  obtain ⟨b, hb⟩ := exists_slot hd
  have hlen : s.pendOp.toNat = 2 ^ 32 - 1 := by rw [hop]; rfl
  obtain ⟨-, hcap⟩ := h.capOk
  exact exec_apprun_full hb (by omega)

/-! Reading back (R113). -/

theorem ECode.eq_ok_of_code {e : ECode} (h : e.code = 0) : e = .ok := by
  cases e with
  | ok => rfl
  | _ => exact absurd h (by decide)

/-- On a slot that exists, APPINT of a legal width that ends with ECODE 0 has appended its field. -/
theorem exec_appint_success (h : s.Inv) (hb : s.slots[d]? = some b) (hw : w ≤ 32) (he : exec (.appint d w) s = .next t)
    (hok : t.status.ecode = 0) :
    ∃ b', t = completed (setSlot s d b') ∧ Appended s.capBytes b (fieldBits s.pendOp w) b' := by
  by_cases hfull : 8 * s.capBytes < b.bitCount.toNat + w
  · cases he.symm.trans (exec_appint_full hb hw hfull)
    exact absurd (ECode.eq_ok_of_code (e := .capacity) hok) (by decide)
  · obtain ⟨b', e, ha⟩ := exec_appint_appends h hb hw (Nat.le_of_not_lt hfull)
    cases he.symm.trans e
    exact ⟨b', rfl, ha⟩

theorem setSlot_get_self (hb : s.slots[d]? = some b) (b' : Slot) : (setSlot s d b').slots[d]? = some b' :=
  List.getElem?_set_self (List.getElem?_eq_some_iff.1 hb).1

/-- Settles O33: the slot holds the field's bits, RDBIT gives what GetBit gives, and the field spells the low bits. -/
theorem appintRoundTrip : Obligations.AppintRoundTrip := by
  intro s t d w b h hb _ hw he hok
  obtain ⟨b', rfl, ha⟩ := exec_appint_success h hb hw he hok
  have hb' := setSlot_get_self hb b'
  have hlen : (fieldBits s.pendOp w).length = w := length_fieldBits _ _
  refine ⟨b', fieldBits s.pendOp w, hb', hlen, fun j hj => ?_, bitsToNat_fieldBits _ _⟩
  have hj' := hlen.symm ▸ hj
  have hbit := ha.getBit_new h.capOk hj'
  rw [getElem_fieldBits] at hbit
  have hpos : (BitVec.ofNat 32 (b.bitCount.toNat + j)).toNat < b'.bitCount.toNat := by
    have hlt := ha.inv.count_lt h.capOk
    have hcount := ha.count
    rw [BitVec.toNat_ofNat, Nat.mod_eq_of_lt (by omega)]
    omega
  refine ⟨hbit, by rw [List.getElem?_eq_getElem hj', getElem_fieldBits], _, exec_rdbit_ok hb' hpos hbit, rfl, ?_⟩
  rw [completedWith_result]
  cases s.pendOp.getLsbD (w - 1 - j) <;> rfl

/-! The three laws (R114). -/

/-- No command changes a slot other than its own. -/
theorem Effect.slots_other (h : Effect P i s t) (hd : d ≠ i.slot) : t.slots[d]? = s.slots[d]? := by
  by_cases heq : t.slots = s.slots
  · rw [heq]
  · obtain ⟨-, -, hother⟩ := h.slots_change heq
    exact hother d hd

/-- An append command on a slot that exists: an error, or as many bits appended as `appendCount` says. -/
theorem exec_append_cases (h : s.Inv) (hi : appendCount s i = some k) (hb : s.slots[i.slot]? = some b) :
    (∃ e, e ≠ .ok ∧ exec i s = .next (raised e s)) ∨
    ∃ vs b', vs.length = k ∧ exec i s = .next (completed (setSlot s i.slot b')) ∧ Appended s.capBytes b vs b' := by
  cases i with
  | appbit d v =>
    obtain rfl := Option.some.inj hi
    by_cases hfull : 8 * s.capBytes < b.bitCount.toNat + 1
    · exact .inl ⟨.capacity, by decide, exec_appbit_full hb hfull⟩
    · exact .inr ⟨_, (exec_appbit_appends h hb (Nat.le_of_not_lt hfull) v).imp fun b' hb' => ⟨rfl, hb'⟩⟩
  | apprun d v =>
    obtain rfl := Option.some.inj hi
    by_cases hfull : 8 * s.capBytes < b.bitCount.toNat + s.pendOp.toNat
    · exact .inl ⟨.capacity, by decide, exec_apprun_full hb hfull⟩
    · exact .inr ⟨_, (exec_apprun_appends h hb (Nat.le_of_not_lt hfull) v).imp fun b' hb' => ⟨List.length_replicate, hb'⟩⟩
  | appint d w =>
    obtain rfl := Option.some.inj hi
    by_cases hwide : 32 < w
    · exact .inl ⟨.widthInvalid, by decide, exec_appint_wide hb hwide⟩
    · have hw := Nat.le_of_not_lt hwide
      by_cases hfull : 8 * s.capBytes < b.bitCount.toNat + w
      · exact .inl ⟨.capacity, by decide, exec_appint_full hb hw hfull⟩
      · exact .inr ⟨_, (exec_appint_appends h hb hw (Nat.le_of_not_lt hfull)).imp fun b' hb' => ⟨length_fieldBits _ _, hb'⟩⟩
  | _ => cases hi

/-- Settles O34: an error leaves the slot as it is, a success appends `k` bits to it. -/
theorem appendLaws : Obligations.AppendLaws := by
  intro i s t k h hi he
  refine ⟨fun e hne => (exec_next he).slots_other hne, fun b hb => ?_⟩
  have hinv := h.slot hb
  rcases exec_append_cases h hi hb with ⟨e, hne, herr⟩ | ⟨vs, b', rfl, hok, ha⟩
  · cases he.symm.trans herr
    exact ⟨b, hb, le_rfl, le_rfl, fun _ _ => rfl, fun hcode => absurd (ECode.eq_ok_of_code hcode) hne⟩
  · cases he.symm.trans hok
    exact ⟨b', setSlot_get_self hb b', ha.count ▸ Nat.le_add_right _ _, ha.byteLen_le hinv, fun p => ha.getBit_old hinv h.capOk,
      fun _ => ⟨ha.count, ha.inv.len_eq⟩⟩

end Sys2Proof.Machine
end

section
/-! SUPPORT. The unpack engine (42_read.md): RDBIT (O35, O36), TOBYTES (O37), RDBYTE outside the view (O39) and LEN (O40). -/

namespace Sys2Proof.Machine

variable {cap : Nat} {b : Slot} {p : Word}

/-- GetBit gives a bit at every position below BITCOUNT (20_memory.md R56). -/
theorem Slot.Inv.getBit_some (h : b.Inv cap) (hc : CapOk cap) (hp : p.toNat < b.bitCount.toNat) :
    ∃ v, getBit cap b p = .ok v := by
  have hpresent : p.toNat < 8 * b.byteLen.toNat := Nat.lt_of_lt_of_le hp h.count_le
  obtain ⟨v, hv⟩ := h.bit_some hpresent
  exact ⟨v, getBit_of_storedBit h hc hpresent hv⟩

/-- RESULT of RDBIT is the bit zero-extended: 0 or 1 (10_state.md R29). -/
theorem ofNat_toNat_bit (v : Bool) : BitVec.ofNat 32 v.toNat = if v then 1 else 0 := by cases v <;> rfl

/-- Settles O35: a position below BITCOUNT has a bit, and RDBIT completes with it. -/
theorem rdbitReadsBit : Obligations.RdbitReadsBit := by
  intro s d b h hb hp
  obtain ⟨v, hv⟩ := (h.slot hb).getBit_some h.capOk hp
  refine ⟨v, hv, ?_⟩
  rw [← ofNat_toNat_bit]
  exact exec_rdbit_ok hb hp hv

/-- A legal slot holds at most 2^31 bits (INV1 and 00_scope.md R6). -/
theorem Slot.Inv.count_le_two_pow (h : b.Inv cap) (hc : CapOk cap) : b.bitCount.toNat ≤ 2 ^ 31 := by
  obtain ⟨hinv1, -⟩ := h
  obtain ⟨-, hmax⟩ := hc
  omega

/-- Settles O36: in range by O35; 2^31 and every position above it lie past the end of any legal slot. -/
theorem rdbitRangeLaw : Obligations.RdbitRangeLaw := by
  intro s d b h hb
  constructor
  · intro hp
    obtain ⟨_, -, hexec⟩ := rdbitReadsBit s d b h hb hp
    exact ⟨_, hexec, rfl⟩
  · intro hout
    have hpast : b.bitCount.toNat ≤ s.pendOp.toNat := hout.elim id ((h.slot hb).count_le_two_pow h.capOk).trans
    exact exec_rdbit_out hb hpast

/-- Settles O37: the byte count of a 32-bit bit count fits RESULT. -/
theorem tobytesReturnsViewLength : Obligations.TobytesReturnsViewLength := by
  intro s d b _ hb
  have hfits : ceil8 b.bitCount.toNat < 2 ^ 32 := by
    have := b.bitCount.isLt
    rw [ceil8]; omega
  refine ⟨_, exec_tobytes_ok hb, ?_, rfl⟩
  rw [completedWith_result, BitVec.toNat_ofNat, Nat.mod_eq_of_lt hfits, ceil8]

/-- Settles O39: the view ends at ceil(BITCOUNT / 8), whatever BYTELEN is. -/
theorem rdbyteOutsideViewOutOfRange : Obligations.RdbyteOutsideViewOutOfRange := fun _ _ _ hb hout => exec_rdbyte_out hb hout

/-- Settles O40: LEN has no error case beyond the slot check. -/
theorem lenReturnsBitCount : Obligations.LenReturnsBitCount := fun _ _ _ hb => exec_len_ok hb

end Sys2Proof.Machine
end

section
/-! SUPPORT. Copy and concatenation (43_copy_concat.md): what CLONE and CONCAT do on slots that exist, successive APPBITs as one
append, and the obligations O41 to O44. -/

namespace Sys2Proof.Machine

variable {cap c d : Nat} {b b₁ b₂ src : Slot} {vs : List Bool} {s t : State}

theorem slots_set_same (hb : s.slots[d]? = some b) : s.slots.set d b = s.slots := by
  obtain ⟨hd, rfl⟩ := List.getElem?_eq_some_iff.1 hb
  exact List.set_getElem_self hd

/-! CLONE (R130). -/

/-- CLONE writes the source to its destination; with d = s that leaves every slot as it is. -/
theorem exec_clone_copies (h : s.Inv) (hd : d < s.nbuf) (hs : s.slots[c]? = some src) :
    exec (.clone d c) s = .next (completed (setSlot s d src)) := by
  by_cases hdc : d = c
  · subst hdc
    rw [exec_clone_self hs, setSlot, slots_set_same hs]
  · obtain ⟨b, hb⟩ := exists_slot hd
    exact exec_clone_ok hb hs hdc (cloneSlot_ok (h.slot hb) (h.slot hs) h.capOk)

/-- Settles O41: for d = s the write of the source's slot to itself is no change. -/
theorem cloneCopiesSlot : Obligations.CloneCopiesSlot := by
  intro s d c src h hd hs
  have hslots : (if d = c then s.slots else s.slots.set d src) = s.slots.set d src := by
    split
    case isTrue hdc => exact (slots_set_same (hdc ▸ hs)).symm
    case isFalse => rfl
  rw [exec_clone_copies h hd hs, hslots]
  rfl

theorem bitsAsString_ok (h : b.Inv cap) (hc : CapOk cap) : bitsAsString cap b = .ok ((streamBits b).map bitChar) := by
  rw [bitsAsString, bitsOf_ok h hc]

/-- After a write of slot `c`'s own content to any slot, slot `c` holds what it held. -/
theorem setSlot_get_source (hs : s.slots[c]? = some src) (d : Nat) : (setSlot s d src).slots[c]? = some src := by
  by_cases hdc : d = c
  · subst hdc; exact setSlot_get_self hs src
  · exact (List.getElem?_set_ne hdc).trans hs

/-- Settles O44: after CLONE both slots are the source's, and no command writes a slot other than its own. -/
theorem cloneIsIndependent : Obligations.CloneIsIndependent := by
  intro s t d c src h hd hs he
  cases he.symm.trans (exec_clone_copies h hd hs)
  have hsource := setSlot_get_source hs d
  have hstring := bitsAsString_ok (h.slot hs) h.capOk
  refine ⟨hsource, ⟨src, _, List.getElem?_set_self hd, hstring, hstring⟩, ?_⟩
  rintro i v u hdc rfl hu
  exact ((exec_next hu).slots_other hdc.symm).trans hsource

/-! CONCAT (R131). -/

/-- CONCAT with room appends the source's stream as it stood before the command. -/
theorem exec_concat_appends (h : s.Inv) (hb : s.slots[d]? = some b) (hs : s.slots[c]? = some src)
    (hroom : b.bitCount.toNat + src.bitCount.toNat ≤ 8 * s.capBytes) :
    ∃ b', exec (.concat d c) s = .next (completed (setSlot s d b')) ∧ Appended s.capBytes b (streamBits src) b' := by
  have hself (hdc : decide (d = c) = true) : src = b := by
    obtain rfl := of_decide_eq_true hdc
    exact Option.some.inj (hs.symm.trans hb)
  obtain ⟨b', e, ha⟩ := concatBits_ok (h.slot hb) (h.slot hs) h.capOk (decide (d = c)) hself hroom
  exact ⟨b', exec_concat_ok hb hs hroom e, ha⟩

/-- Settles O42: CONCAT's effect as the stream, the counters and MemRead show it. -/
theorem concatAppendsStream : Obligations.ConcatAppendsStream := by
  intro s d c b src h hb hs hroom
  have hinv := h.slot hb
  obtain ⟨b', e, ha⟩ := exec_concat_appends h hb hs hroom
  have hlen : (streamBits src).length = src.bitCount.toNat := length_streamBits src
  refine ⟨b', streamBits b, streamBits src, e, bitsOf_ok hinv h.capOk, bitsOf_ok (h.slot hs) h.capOk, ?_, hlen ▸ ha.count,
    hlen ▸ ha.byteLen_eq, fun n hn => ha.memRead_byteIndex_frame hinv h.capOk n (hlen.symm ▸ hn)⟩
  rw [bitsOf_ok ha.inv h.capOk, ha.stream hinv]

/-! CONCAT and successive APPBITs (R132). -/

/-- The bits appended determine the slot. -/
theorem Appended.unique (h : b.Inv cap) (h₁ : Appended cap b vs b₁) (h₂ : Appended cap b vs b₂) : b₁ = b₂ :=
  slot_ext h₁.inv h₂.inv ((h₁.stream h).trans (h₂.stream h).symm)

theorem appbitEach_cons_of_next {v : Bool} (he : exec (.appbit d v) s = .next t) :
    appbitEach d (v :: vs) s = appbitEach d vs t := by rw [appbitEach, he]

/-- Successive APPBITs on a slot with room for all of them append their bits and change no other slot. -/
theorem appbitEach_appends (vs : List Bool) (h : s.Inv) (hb : s.slots[d]? = some b)
    (hroom : b.bitCount.toNat + vs.length ≤ 8 * s.capBytes) :
    ∃ b' u, appbitEach d vs s = .next u ∧ u.slots = s.slots.set d b' ∧ Appended s.capBytes b vs b' := by
  induction vs generalizing s b with
  | nil => exact ⟨b, s, rfl, (slots_set_same hb).symm, .nil (h.slot hb)⟩
  | cons v vs ih =>
    rw [List.length_cons] at hroom
    obtain ⟨b₁, he, ha₁⟩ := exec_appbit_appends h hb (by omega) v
    have hcount : b₁.bitCount.toNat = b.bitCount.toNat + 1 := ha₁.count
    obtain ⟨b₂, u, hu, hslots, ha₂⟩ := ih (exec_inv h he) (setSlot_get_self hb b₁)
      (by rw [hcount, completed_capBytes, setSlot_capBytes]; omega)
    refine ⟨b₂, u, (appbitEach_cons_of_next he).trans hu, ?_, ha₁.trans ha₂⟩
    rw [hslots, completed_slots, setSlot_slots, List.set_set]

/-- Settles O43: both append the source's stream to slot d, and the bits appended determine the slot. -/
theorem concatEqualsSuccessiveAppbits : Obligations.ConcatEqualsSuccessiveAppbits := by
  intro s d c b src h hb hs hroom
  obtain ⟨b₁, he, ha₁⟩ := exec_concat_appends h hb hs hroom
  obtain ⟨b₂, u, hu, hslots, ha₂⟩ := appbitEach_appends (streamBits src) h hb (by rwa [length_streamBits])
  obtain rfl := ha₁.unique (h.slot hb) ha₂
  exact ⟨streamBits src, _, u, bitsOf_ok (h.slot hs) h.capOk, he, hu, hslots.symm⟩

end Sys2Proof.Machine
end

section
/-! SUPPORT. Observation (44_observation.md): the characters of bitsAsString (O45) and the text of describe (O46). -/

namespace Sys2Proof.Machine

variable {cap p : Nat} {b : Slot} {cs : List Char}

/-- GetBit gives the bit of the stream at every position of it. -/
theorem Slot.Inv.getBit_stream (h : b.Inv cap) (hc : CapOk cap) (hp : p < b.bitCount.toNat) :
    getBit cap b (BitVec.ofNat 32 p) = .ok ((streamBits b)[p]'((length_streamBits b).symm ▸ hp)) :=
  getBit_eq_of_bit h hc (Nat.lt_of_lt_of_le hp h.count_le) (h.streamBits_get hp)

/-- Settles O45: the string is the stream, one character for each bit. -/
theorem bitsAsStringShowsStream : Obligations.BitsAsStringShowsStream := by
  intro cap b hmin hmax h
  have hc : CapOk cap := ⟨hmin, hmax⟩
  refine ⟨_, bitsAsString_ok h hc, by rw [List.length_map, length_streamBits], fun p hp => ⟨_, h.getBit_stream hc hp, ?_⟩⟩
  rw [List.getElem?_map, List.getElem?_eq_getElem, Option.map_some, bitChar]

theorem describe_empty (h0 : b.bitCount = 0) : describe cap b = .ok ['<', 'e', 'm', 'p', 't', 'y', '>'] := if_pos h0

theorem describe_nonempty (h0 : b.bitCount ≠ 0) (hcs : bitsAsString cap b = .ok cs) :
    describe cap b = .ok (cs ++ '(' :: (Nat.toDigits 10 b.bitCount.toNat ++ [')'])) := by
  rw [describe, if_neg h0, hcs]
  simp only [List.append_assoc, List.cons_append, List.nil_append]

/-- A text that ends with a closing parenthesis is not `<empty>`. -/
theorem append_paren_ne_empty (cs ds : List Char) : cs ++ '(' :: (ds ++ [')']) ≠ ['<', 'e', 'm', 'p', 't', 'y', '>'] := by
  intro heq
  rw [← List.cons_append, ← List.append_assoc] at heq
  have hlast : some ')' = some '>' := List.getLast?_concat.symm.trans (congrArg List.getLast? heq)
  exact absurd hlast (by decide)

/-- Settles O46: the text of a slot with bits ends with a parenthesis, so it is never `<empty>`. -/
theorem describeIsEmptyIffNoBits : Obligations.DescribeIsEmptyIffNoBits := by
  intro cap b hmin hmax h
  have hcs := bitsAsString_ok h ⟨hmin, hmax⟩
  refine ⟨⟨fun hempty => ?_, describe_empty⟩, fun h0 => ⟨_, hcs, describe_nonempty h0 hcs⟩⟩
  by_contra h0
  rw [describe_nonempty h0 hcs] at hempty
  exact append_paren_ne_empty _ _ (Except.ok.inj hempty)

end Sys2Proof.Machine
end

section
/-! SUPPORT. The only stops of the machine (60_exceptions.md R155): which turn a step takes, and what each turn answers (O59). -/

namespace Sys2Proof.Machine

variable {s : State}

/-- The outcomes R155 and 10_state.md R36 leave: a next state, or an access of the host that R36 refuses. -/
def State.GoesOnOrRefuses (s : State) (o : Host.Outcome State Fault Refusal) : Prop :=
  completes o ∨ ∃ a, o = .refused (.hostAccess a) ∧ ¬ a.Legal ∧ s.hostAccessRefused

theorem not_legal_of_hostReg?_none {a : BusAccess} (h : hostReg? a = none) : ¬ a.Legal := by
  intro hlegal
  rw [hostReg?, if_pos hlegal] at h
  cases h

/-- A host operation has a step unless it is an access that names no register. -/
theorem hostStep_goesOnOrRefuses (s : State) : s.GoesOnOrRefuses (hostStep s) := by
  unfold hostStep
  split
  case h_1 | h_4 | h_5 => exact .inl ⟨_, rfl⟩
  case h_2 a v rest hp =>
    split
    case h_1 hr =>
      have hbad := not_legal_of_hostReg?_none hr
      exact .inr ⟨a, rfl, hbad, a, hbad, .inl ⟨v, rest, hp⟩⟩
    case h_2 => exact .inl ⟨_, rfl⟩
  case h_3 a n rest hp =>
    split
    case h_1 hr =>
      have hbad := not_legal_of_hostReg?_none hr
      exact .inr ⟨a, rfl, hbad, a, hbad, .inr ⟨n, rest, hp⟩⟩
    case h_2 => exact .inl ⟨_, rfl⟩

theorem engineStep_completes (h : s.Inv) : completes (engineStep s) := by
  cases hdec : decodeCmd s.pendCmd with
  | illegal why => exact ⟨_, engineStep_illegal hdec⟩
  | command i =>
    obtain ⟨t, he, -⟩ := exec_effect h i
    exact ⟨t, (engineStep_command hdec).trans he⟩

theorem engineTurn_completes (h : s.Inv) : completes (engineTurn s) := by
  unfold engineTurn
  split
  · exact engineStep_completes h
  · exact ⟨s, rfl⟩

theorem takeTurn_goesOnOrRefuses (h : s.Inv) (turn : Turn) : s.GoesOnOrRefuses (takeTurn turn s) := by
  cases turn with
  | host => exact hostStep_goesOnOrRefuses s
  | engine => exact .inl (engineTurn_completes h)
  | rst => exact .inl ⟨_, rfl⟩

/-- Every step is some turn, taken with the turns still to come. -/
theorem step_takes_turn (s : State) : ∃ turn ts, step s = takeTurn turn { s with schedule := ts } := by
  cases hsch : s.schedule with
  | nil =>
    have hs : s = { s with schedule := [] } := by rw [← hsch]
    exact ⟨defaultTurn s, [], by rw [← hs, step, stepTurn, hsch]⟩
  | cons turn ts => exact ⟨turn, ts, by rw [step, stepTurn, hsch]⟩

/-- Settles O59: under the invariants the engine completes every command, so only a turn of the host can stop. -/
theorem onlyRefusedAccessesStop : Obligations.OnlyRefusedAccessesStop := by
  intro s h
  obtain ⟨turn, ts, hstep⟩ := step_takes_turn s
  rw [hstep]
  exact takeTurn_goesOnOrRefuses (inv_schedule h ts) turn

end Sys2Proof.Machine
end

section
/-! SUPPORT. A completion's error (60_exceptions.md R150-R153): it is exact (O25), BAD_SLOT comes before a command's rule (O26), and
the code reported is the first that applies (O27). -/

namespace Sys2Proof.Machine

variable {P : Slot → Prop} {i : Instr} {s t : State} {d c : Nat} {b : Slot}

/-! An error is exact (R151). -/

theorem Effect.ovr_eq (h : Effect P i s t) : t.status.ovr = s.status.ovr := by cases h <;> rfl

theorem Effect.error_frame (h : Effect P i s t) (herr : t.status.ecode ≠ 0) :
    t = { s with status := { s.status with busy := false, ecode := t.status.ecode } } := by
  cases h with
  | error => rfl
  | result | plain | write => exact absurd rfl herr

/-- No command looks at ECODE, and each way to end overwrites it. -/
theorem unseen_ecode (s : State) (e : BitVec 4) : Unseen s (fun s => { s with status := { s.status with ecode := e } }) id where
  cap := rfl
  slots := rfl
  op := rfl
  raised _ := rfl
  completed := rfl
  result _ := rfl
  write _ _ := rfl

theorem mapNext_id (o : Host.Outcome State Fault Refusal) : mapNext id o = o := by cases o <;> rfl

theorem engineStep_ignores_ecode (s : State) (e : BitVec 4) :
    engineStep { s with status := { s.status with ecode := e } } = engineStep s := by
  cases hdec : decodeCmd s.pendCmd with
  | illegal why => exact (engineStep_illegal hdec).trans (engineStep_illegal hdec).symm
  | command i =>
    calc
      _ = exec i { s with status := { s.status with ecode := e } } := engineStep_command hdec
      _ = exec i s := (exec_unseen (unseen_ecode s e) i).trans (mapNext_id _)
      _ = engineStep s := (engineStep_command hdec).symm

/-- Settles O25: of the ways a completion ends only the error leaves a code other than 0, and none reads the old one. -/
theorem errorsAreExact : Obligations.ErrorsAreExact := by
  intro s t h
  obtain ⟨i, he⟩ := engineStep_effect h
  exact ⟨he.error_frame, he.busy_eq, he.ovr_eq, fun e => (engineStep_ignores_ecode s e).trans h⟩

/-! The slot checks (R152). -/

theorem exec_badSource (hi : i.source? = some c) (hc : s.nbuf ≤ c) : exec i s = .next (raised .badSlot s) := by
  cases i with
  | clone d e | concat d e =>
    obtain rfl := Option.some.inj hi
    rcases withSlot_cases d s _ with ⟨-, hd⟩ | ⟨b, -, hd⟩
    · exact hd
    · exact hd.trans (withSlot_bad hc _)
  | _ => cases hi

/-- Settles O26: D is checked first, then S, and both checks come before the command's rule. -/
theorem missingSlotRaisesBadSlot : Obligations.MissingSlotRaisesBadSlot := by
  intro i s h
  rcases h with hd | ⟨c, hi, hc⟩
  · exact exec_badSlot hd
  · exact exec_badSource hi hc

/-! The first error that applies (R153). -/

theorem bitCountAt_eq (hb : s.slots[d]? = some b) : bitCountAt s d = b.bitCount.toNat := by rw [bitCountAt, hb]; rfl

theorem firstError_badSlot (h : s.nbuf ≤ i.slot ∨ ∃ c ∈ i.source?, s.nbuf ≤ c) : firstError s i = .badSlot := if_pos h

/-- Where the slots exist, the operation on bit lists (O60) reports the first error that applies. -/
theorem bufferEffect_code (hslots : ¬ (s.nbuf ≤ i.slot ∨ ∃ c ∈ i.source?, s.nbuf ≤ c)) :
    (bufferEffect (8 * s.capBytes) i s.pendOp s.streams).code = firstError s i := by
  obtain ⟨hd, hsrc⟩ := not_or.1 hslots
  have hsource (c : Nat) (hc : c ∈ i.source?) : c < s.nbuf := Nat.lt_of_not_le fun hle => hsrc ⟨c, hc, hle⟩
  obtain ⟨b, hb⟩ := exists_slot (Nat.lt_of_not_le hd)
  have hx := streams_get hb
  have hn := bitCountAt_eq hb
  unfold firstError
  rw [if_neg hslots]
  cases i
  all_goals simp only [Instr.slot] at hx hn
  case init | tobytes | len => simp only [bufferEffect, Instr.slot, hx]
  case appbit | apprun | appint | rdbyte =>
    simp only [bufferEffect, Instr.slot, hx, hn, length_streamBits]
    split_ifs <;> rfl
  case rdbit d =>
    cases hget : (streamBits b)[s.pendOp.toNat]? with
    | none =>
      have hout : b.bitCount.toNat ≤ s.pendOp.toNat := by simpa using List.getElem?_eq_none_iff.1 hget
      simp only [bufferEffect, Instr.slot, hx, hget, hn, if_pos hout]
    | some v =>
      have hin : s.pendOp.toNat < b.bitCount.toNat := by simpa using (List.getElem?_eq_some_iff.1 hget).1
      simp only [bufferEffect, Instr.slot, hx, hget, hn, if_neg (Nat.not_le.2 hin)]
  case clone d c =>
    obtain ⟨src, hs⟩ := exists_slot (hsource c rfl)
    simp only [bufferEffect, Instr.slot, hx, streams_get hs]
  case concat d c =>
    obtain ⟨src, hs⟩ := exists_slot (hsource c rfl)
    simp only [bufferEffect, Instr.slot, hx, streams_get hs, hn, bitCountAt_eq hs, length_streamBits]
    split_ifs <;> rfl

theorem exec_first_error (h : s.Inv) (i : Instr) : ∃ t, exec i s = .next t ∧ t.status.ecode = (firstError s i).code := by
  by_cases hbad : s.nbuf ≤ i.slot ∨ ∃ c ∈ i.source?, s.nbuf ≤ c
  · rw [firstError_badSlot hbad]
    exact ⟨_, missingSlotRaisesBadSlot i s hbad, rfl⟩
  · obtain ⟨t, he, r⟩ := exec_refines h i
    exact ⟨t, he, by rw [r.status, bufferEffect_code hbad]⟩

/-- Settles O27: an illegal word raises ILLEGAL, and a command's error is that of its operation on bit lists (O60). -/
theorem firstErrorIsReported : Obligations.FirstErrorIsReported := by
  intro s ts h hsch hb
  rw [step_engine_busy hsch hb]
  cases hdec : decodeCmd s.pendCmd with
  | illegal why => exact ⟨_, engineStep_illegal hdec, rfl⟩
  | command i =>
    obtain ⟨t, he, hcode⟩ := exec_first_error (inv_schedule h ts) i
    exact ⟨t, (engineStep_command (s := { s with schedule := ts }) hdec).trans he, hcode⟩

end Sys2Proof.Machine
end

section
/-! SUPPORT. OVR (60_exceptions.md R154): only the host's writes to CMD and STATUS and reset change it (O52). -/

namespace Sys2Proof.Machine

variable {s t : State} {r : HostReg} {w : Word}

theorem eq_of_regAt_status {off : Nat} (h : regAt off = .status) : off = 0x0C := by
  unfold regAt at h
  split at h
  case h_4 => rfl
  all_goals cases h

theorem hostReg?_some {a : BusAccess} (h : hostReg? a = some r) : a = ⟨.word, a.offset⟩ ∧ regAt a.offset = r := by
  obtain ⟨kind, off⟩ := a
  unfold hostReg? at h
  split at h
  case isTrue hlegal =>
    obtain ⟨rfl, -, -⟩ := hlegal
    exact ⟨rfl, Option.some.inj h⟩
  case isFalse => cases h

/-- STATUS is at offset 0x0C alone. -/
theorem hostReg?_status {a : BusAccess} (h : hostReg? a = some .status) : a = ⟨.word, 0x0C⟩ := by
  obtain ⟨hword, hreg⟩ := hostReg?_some h
  rw [hword, eq_of_regAt_status hreg]

/-- OVR rises in a host write by an overrun alone (10_state.md R31). -/
theorem hostWrite_sets_ovr (hs : s.status.ovr = false) (ht : (hostWrite r w s).status.ovr = true) :
    r = .cmd ∧ s.status.busy = true := by
  cases r with
  | cmd =>
    refine ⟨rfl, ?_⟩
    by_contra hb
    rw [hostWrite, writeCmd_idle w (Bool.eq_false_of_not_eq_true hb)] at ht
    simp [hs] at ht
  | status => simp [hostWrite, statusWrite_eq, hs] at ht
  | _ => simp [hostWrite, hs] at ht

/-- OVR falls in a host write by a STATUS write with bit 8 set alone (10_state.md R34). -/
theorem hostWrite_clears_ovr (hs : s.status.ovr = true) (ht : (hostWrite r w s).status.ovr = false) :
    r = .status ∧ w.getLsbD 8 = true := by
  cases r with
  | cmd =>
    cases hb : s.status.busy with
    | true => rw [hostWrite, writeCmd_busy w hb] at ht; cases ht
    | false => rw [hostWrite, writeCmd_idle w hb] at ht; simp [hs] at ht
  | status => exact ⟨rfl, by simpa [hostWrite, statusWrite_eq, hs] using ht⟩
  | _ => simp [hostWrite, hs] at ht

/-- Of the host's operations only a write changes STATUS. -/
theorem hostStep_changes_status (h : hostStep s = .next t) (hne : t.status ≠ s.status) :
    ∃ a r w rest, s.program = .wr a w :: rest ∧ hostReg? a = some r ∧ t = hostWrite r w (hostNext s rest) := by
  unfold hostStep at h
  split at h
  case h_1 => cases h; exact absurd rfl hne
  case h_2 a w rest hp =>
    split at h
    · cases h
    case h_2 r hr => cases h; exact ⟨a, r, w, rest, hp, hr, rfl⟩
  case h_3 =>
    split at h
    · cases h
    · cases h; exact absurd rfl hne
  case h_4 => cases h; split at hne <;> exact absurd rfl hne
  case h_5 => cases h; exact absurd rfl hne

theorem hostStep_sets_ovr (h : hostStep s = .next t) (hs : s.status.ovr = false) (ht : t.status.ovr = true) :
    s.status.busy = true ∧ ∃ w rest, s.program = .wr ⟨.word, 0x00⟩ w :: rest := by
  obtain ⟨a, r, w, rest, hp, hr, rfl⟩ := hostStep_changes_status h fun he => by simp [he, hs] at ht
  obtain ⟨rfl, hb⟩ := hostWrite_sets_ovr (s := hostNext s rest) hs ht
  exact ⟨hb, w, rest, hostReg?_cmd hr ▸ hp⟩

theorem hostStep_clears_ovr (h : hostStep s = .next t) (hs : s.status.ovr = true) (ht : t.status.ovr = false) :
    ∃ w rest, s.program = .wr ⟨.word, 0x0C⟩ w :: rest ∧ w.getLsbD 8 = true := by
  obtain ⟨a, r, w, rest, hp, hr, rfl⟩ := hostStep_changes_status h fun he => by simp [he, hs] at ht
  obtain ⟨rfl, hw⟩ := hostWrite_clears_ovr (s := hostNext s rest) hs ht
  exact ⟨w, rest, hostReg?_status hr ▸ hp, hw⟩

/-- A completion and a turn that passes keep OVR, so the host or reset has changed it. -/
theorem step_changes_ovr (h : step s = .next t) (hne : t.status.ovr ≠ s.status.ovr) :
    (∃ ts, hostStep { s with schedule := ts } = .next t) ∨ ((∃ ts, s.schedule = .rst :: ts) ∧ t.status.ovr = false) := by
  cases step_effect h with
  | host ts h => exact .inl ⟨ts, h⟩
  | engine ts hn h => exact (engineStep_effect h).elim fun _ he => absurd he.ovr_eq hne
  | passed ts => exact absurd rfl hne
  | reset ts hsch => exact .inr ⟨⟨ts, hsch⟩, rfl⟩

/-- Settles O52: a change of OVR is the host's or reset's, and reset only clears it. -/
theorem ovrIsStickyUntilCleared : Obligations.OvrIsStickyUntilCleared := by
  intro s t h
  constructor
  · intro hs ht
    rcases step_changes_ovr h (by simp [hs, ht]) with ⟨ts, h⟩ | ⟨-, hclear⟩
    · obtain ⟨hb, hcmd⟩ := hostStep_sets_ovr h hs ht
      have he := hostStep_next h
      obtain ⟨hpend, hop⟩ := he.latch_eq hb
      exact ⟨hb, he.ecode_eq, hpend, hop, hcmd⟩
    · cases ht.symm.trans hclear
  · intro hs ht
    rcases step_changes_ovr h (by simp [hs, ht]) with ⟨ts, h⟩ | ⟨hrst, -⟩
    · exact .inr (hostStep_clears_ovr (s := { s with schedule := ts }) h hs ht)
    · exact .inl hrst

end Sys2Proof.Machine
end

section
/-! SUPPORT. The agents' turns and the reset input (70_reset_and_hazards.md R170, R176, R177, R181): when the host has a step (O21),
what a turn of the engine does (O23, O24), host writes that commute with the completion (O53), and the reset event (O56). -/

namespace Sys2Proof.Machine

variable {i : Instr} {s : State} {ts : List Turn} {rest : List HostOp} {a : BusAccess} {r : HostReg} {w : Word}
  {u v : State → State}

/-! The host's turn (R176). -/

theorem step_host_refused (hsch : s.schedule = .host :: ts) (h : s.hostAccessRefused) :
    ∃ a, step s = .refused (.hostAccess a) := by
  obtain ⟨a, hbad, ⟨w, rest, hp⟩ | ⟨n, rest, hp⟩⟩ := h
  · exact ⟨a, step_host_wr_refused hsch hp (hostReg?_illegal hbad)⟩
  · exact ⟨a, step_host_rd_refused hsch hp (hostReg?_illegal hbad)⟩

/-- Settles O21: a refused access is no next state, and a host turn that does not go on is one. -/
theorem hostStepsUnlessRefused : Obligations.HostStepsUnlessRefused := by
  intro s ts hsch
  constructor
  · rintro ⟨t, ht⟩ hrefused
    obtain ⟨a, ha⟩ := step_host_refused hsch hrefused
    cases ht.symm.trans ha
  · intro hallowed
    rw [step_host hsch]
    rcases hostStep_goesOnOrRefuses { s with schedule := ts } with hnext | ⟨a, -, -, hrefused⟩
    · exact hnext
    · exact absurd hrefused hallowed

/-! The engine's turn (R177). -/

/-- Settles O23: BUSY = 1 gives the engine its step, and the completion is the decoded command. -/
theorem stepRunsDecodedCommand : Obligations.StepRunsDecodedCommand := by
  intro s i hb hdec
  constructor
  · intro hsch
    exact (step_free_busy hsch hb).trans (engineStep_command hdec)
  · intro ts hsch
    exact (step_engine_busy hsch hb).trans (engineStep_command (s := { s with schedule := ts }) hdec)

theorem engineTurn_idle (h : s.status.busy = false) : engineTurn s = .next s := if_neg (by simp [h])

/-- Settles O24: BUSY = 0 leaves the engine nothing to complete. -/
theorem idleEngineTurnPasses : Obligations.IdleEngineTurnPasses :=
  fun _ _ hsch hb => (step_engine hsch).trans (engineTurn_idle hb)

/-! Host writes and the completion in either order (R181). -/

/-- A completion does with a change it does not look at what it does without, and the change stays. -/
theorem engineStep_unseen (h : Unseen s u v) (hcmd : (u s).pendCmd = s.pendCmd) :
    engineStep (u s) = mapNext v (engineStep s) := by
  cases hdec : decodeCmd s.pendCmd with
  | illegal why =>
    rw [engineStep_illegal hdec, engineStep_illegal (hcmd ▸ hdec), h.raised]
    rfl
  | command i =>
    rw [engineStep_command hdec, engineStep_command (hcmd ▸ hdec)]
    exact exec_unseen h i

/-- The host writes `w` to `r`; `rest` of its program and the turns `ts` are left. -/
def hostWriteTurn (r : HostReg) (w : Word) (rest : List HostOp) (ts : List Turn) (s : State) : State :=
  hostWrite r w { s with schedule := ts, program := rest }

/-- Only a CMD write looks at BUSY or touches the latch (10_state.md R30, R31). -/
theorem hostWriteTurn_busy (hr : r ≠ .cmd) : (hostWriteTurn r w rest ts s).status.busy = s.status.busy := by
  cases r with
  | cmd => exact absurd rfl hr
  | status => exact statusWrite_busy w s.status
  | _ => rfl

theorem hostWriteTurn_pendCmd (hr : r ≠ .cmd) : (hostWriteTurn r w rest ts s).pendCmd = s.pendCmd := by
  cases r with
  | cmd => exact absurd rfl hr
  | _ => rfl

/-- The turns a write finds laid down do not enter it. -/
theorem hostWriteTurn_schedule (hr : r ≠ .cmd) (ts' : List Turn) :
    { hostWriteTurn r w rest ts' s with schedule := ts } = hostWriteTurn r w rest ts s := by
  cases r with
  | cmd => exact absurd rfl hr
  | _ => rfl

/-- A STATUS write reaches OVR alone, which a completion does not touch (10_state.md R34, 60_exceptions.md R154). -/
theorem done_statusWrite (t : Status) (w : Word) (e : ECode) : (t.hostWrite w).done e = (t.done e).hostWrite w := by
  rw [statusWrite_eq, statusWrite_eq]
  rfl

/-- No command looks at what a host write of another register than CMD changes, and none overwrites it: a command reads PEND_OP,
not OPERAND (R181). -/
theorem unseen_hostWriteTurn (hr : r ≠ .cmd) (s : State) (w : Word) (rest : List HostOp) (ts : List Turn) :
    Unseen s (hostWriteTurn r w rest ts) (hostWriteTurn r w rest ts) := by
  cases r with
  | cmd => exact absurd rfl hr
  | status =>
    have hdone (t : State) (e : ECode) :
        raised e (hostWriteTurn .status w rest ts t) = hostWriteTurn .status w rest ts (raised e t) := by
      simp only [hostWriteTurn, hostWrite, raised, done_statusWrite]
    exact {
      cap := rfl, slots := rfl, op := rfl
      raised := hdone s
      completed := hdone s .ok
      result := fun x => congrArg (fun t : State => { t with result := x }) (hdone s .ok)
      write := fun d b => hdone (setSlot s d b) .ok }
  | _ =>
    exact {
      cap := rfl, slots := rfl, op := rfl
      raised := fun _ => rfl, completed := rfl, result := fun _ => rfl, write := fun _ _ => rfl }

theorem run_one (s : State) : Host.Core.run Sys2Proof.core 1 s = step s := by
  cases h : step s with
  | next t => exact run_next 0 h
  | fault f => exact run_fault 0 h
  | refused x => exact run_refused 0 h

/-- The host's write first: the engine then completes on the written state. -/
theorem run_write_completion (hsch : s.schedule = .host :: .engine :: ts) (hb : s.status.busy = true)
    (hp : s.program = .wr a w :: rest) (hreg : hostReg? a = some r) (hr : r ≠ .cmd) :
    Host.Core.run Sys2Proof.core 2 s = engineStep (hostWriteTurn r w rest ts s) := by
  have hwrite : step s = .next (hostWriteTurn r w rest (.engine :: ts) s) := step_host_wr hsch hp hreg
  have hturn : (hostWriteTurn r w rest (.engine :: ts) s).schedule = .engine :: ts := hostWrite_schedule _ _ _
  have hcompletion : step (hostWriteTurn r w rest (.engine :: ts) s) = engineStep (hostWriteTurn r w rest ts s) := by
    rw [step_engine_busy hturn ((hostWriteTurn_busy hr).trans hb), hostWriteTurn_schedule hr]
  exact (run_next 1 hwrite).trans ((run_one _).trans hcompletion)

/-- The completion first: the host then writes on the completed state, if there is one. -/
theorem run_completion_write (hsch : s.schedule = .engine :: .host :: ts) (hb : s.status.busy = true)
    (hp : s.program = .wr a w :: rest) (hreg : hostReg? a = some r) :
    Host.Core.run Sys2Proof.core 2 s =
      mapNext (hostWriteTurn r w rest ts) (engineStep { s with schedule := .host :: ts }) := by
  have hstep := step_engine_busy hsch hb
  cases hdone : engineStep { s with schedule := .host :: ts } with
  | next t =>
    obtain ⟨i, he⟩ := engineStep_effect hdone
    have hwrite : step t = .next (hostWriteTurn r w rest ts t) := step_host_wr he.schedule_eq (he.program_eq.trans hp) hreg
    exact (run_next 1 (hstep.trans hdone)).trans ((run_one t).trans hwrite)
  | fault f => exact run_fault 1 (hstep.trans hdone)
  | refused x => exact run_refused 1 (hstep.trans hdone)

/-- Settles O53: the completion does not look at the write, so it carries the written state to the written completion. -/
theorem hostWritesCommuteWithCompletion : Obligations.HostWritesCommuteWithCompletion := by
  rintro s ts ⟨kind, off⟩ w rest hb hp rfl h4 hle hcmd
  have hreg := hostReg?_word h4 hle
  have hr : regAt off ≠ .cmd := fun h => hcmd (eq_zero_of_regAt_cmd h)
  have hwriteFirst := run_write_completion (s := { s with schedule := .host :: .engine :: ts }) rfl hb hp hreg hr
  have hcommute := engineStep_unseen (unseen_hostWriteTurn hr { s with schedule := .host :: ts } w rest ts)
    (hostWriteTurn_pendCmd hr)
  have hcompletionFirst := run_completion_write (s := { s with schedule := .engine :: .host :: ts }) rfl hb hp hreg
  exact hwriteFirst.trans (hcommute.trans hcompletionFirst.symm)

/-! The reset event (R170). -/

/-- Settles O56: reset is a turn of its own and looks at nothing but the parameters. -/
theorem resetEventRestoresResetState : Obligations.ResetEventRestoresResetState :=
  fun _ _ hsch => ⟨_, step_rst hsch, rfl, rfl, rfl, rfl, rfl, rfl, rfl⟩

end Sys2Proof.Machine
end
